-- ==== Sys2Proof/Syntax.lean ====
section
/-! DEFINITION. The instruction set: the nine commands and the two events of spec/opcode_table.json. -/

namespace Sys2Proof

/-- The two channels (00_scope.md R9: A = 0, B = 1). -/
inductive Chan where
  | A
  | B
  deriving DecidableEq, Repr

/-- The channel that is not `c`. -/
def Chan.other : Chan → Chan
  | .A => .B
  | .B => .A

/-- One constructor per row of spec/opcode_table.json. A command carries the channel its CMD word's `CH` bit selects
(30_encoding.md R82, R83); its operands are in ARG0 to ARG2, not in the word (R84). TICK and EDGE are input events
and have no encoding (R87). -/
inductive Instr where
  /-- `WR_FREQ` (42_channel_commands.md R130). -/
  | wrFreq (c : Chan)
  /-- `RD_FREQ` (R132). -/
  | rdFreq (c : Chan)
  /-- `WR_PHASE` (R133). -/
  | wrPhase (c : Chan)
  /-- `RD_PHASE` (R134). -/
  | rdPhase (c : Chan)
  /-- `WR_AMP` (R135). -/
  | wrAmp (c : Chan)
  /-- `RD_AMP` (R136). -/
  | rdAmp (c : Chan)
  /-- `WR_HARM` (41_harmonic_bank.md R110). -/
  | wrHarm (c : Chan)
  /-- `RD_HARM` (R116). -/
  | rdHarm (c : Chan)
  /-- `CLR_HARM` (R115). -/
  | clrHarm (c : Chan)
  /-- `TICK` (43_synthesizer_tick.md R157). -/
  | tick
  /-- `EDGE` (44_sync_controller.md R173). -/
  | edge
  deriving DecidableEq, Repr

/-- The channel a command names; an event names none. -/
def Instr.chan? : Instr → Option Chan
  | .wrFreq c => some c
  | .rdFreq c => some c
  | .wrPhase c => some c
  | .rdPhase c => some c
  | .wrAmp c => some c
  | .rdAmp c => some c
  | .wrHarm c => some c
  | .rdHarm c => some c
  | .clrHarm c => some c
  | .tick => none
  | .edge => none

end Sys2Proof
end

