-- ==== Sys2Proof/Config.lean ====
section
/-! DEFINITION. The implementation parameters of 00_scope.md R1. The model has no free value. -/

namespace Sys2Proof

/-- The configuration record of 00_scope.md R1. Frequencies are in mHz, amplitudes in units of `1/ampFull` (R2).
DESIGN CHOICE (entry 1): every rule of the model takes it as an argument. -/
structure Config where
  /-- `N` (TABLE_SIZE): entries in one full waveform cycle. -/
  n : Nat
  /-- `TS_US`: the sample period in microseconds. -/
  tsUs : Nat
  /-- `MIN_FREQ`: the lowest accepted frequency. -/
  minFreq : Nat
  /-- `MAX_FREQ`: the highest accepted frequency. -/
  maxFreq : Nat
  /-- `HCAP`: the global budget of active harmonic slots. -/
  hcap : Nat
  /-- `SLOTS`: harmonic slots in each channel's bank. -/
  slots : Nat
  /-- `AMP_FULL`: the amplitude register value that means 1.0. -/
  ampFull : Nat
  /-- `RAMP_STEP`: the ramp step per tick, in amplitude LSBs. -/
  rampStep : Nat
  /-- `FREQ_RESET`: the frequency of both channels after reset. -/
  freqReset : Nat
  /-- `BASE`: the platform's address of the register window (20_memory.md R61). -/
  base : Nat
  deriving DecidableEq, Repr

/-- `QN`, the depth of the quarter-wave ROM (00_scope.md R1). -/
def Config.qn (cfg : Config) : Nat := cfg.n / 4

/-- The reference configuration: the "reference value" column of 00_scope.md R1. R1 gives BASE no reference value;
0 makes a platform address its own offset (DESIGN CHOICE, entry 12). -/
def Config.reference : Config where
  n := 1024
  tsUs := 50
  minFreq := 1000
  maxFreq := 10000000
  hcap := 8
  slots := 8
  ampFull := 20000
  rampStep := 1
  freqReset := 50000
  base := 0

end Sys2Proof
end

