-- ==== Sys2Proof/WellFormed.lean ====
section
/-! DEFINITION. What is checked before anything runs: the constraints of 00_scope.md R1 on a configuration, and which
instructions can stand in a CMD word (30_encoding.md R87). -/

namespace Sys2Proof

/-- `N mod 4 = 0`, `N >= 4`, `N <= 2^31` (00_scope.md R1). -/
def Config.tableOk (cfg : Config) : Bool :=
  cfg.n % 4 == 0 && decide (4 ≤ cfg.n) && decide (cfg.n ≤ 2 ^ 31)

/-- `1 <= TS_US <= 10^6`. -/
def Config.periodOk (cfg : Config) : Bool :=
  decide (1 ≤ cfg.tsUs) && decide (cfg.tsUs ≤ 10 ^ 6)

/-- `1 <= MIN_FREQ <= MAX_FREQ <= 2^31 - 1`. -/
def Config.freqOk (cfg : Config) : Bool :=
  decide (1 ≤ cfg.minFreq) && decide (cfg.minFreq ≤ cfg.maxFreq) && decide (cfg.maxFreq ≤ 2 ^ 31 - 1)

/-- `SLOTS >= 1`. (`HCAP >= 0` holds of every natural number.) -/
def Config.slotsOk (cfg : Config) : Bool :=
  decide (1 ≤ cfg.slots)

/-- `AMP_FULL` is a positive multiple of 1000, `<= 2^31 - 1000`. -/
def Config.ampOk (cfg : Config) : Bool :=
  cfg.ampFull % 1000 == 0 && decide (0 < cfg.ampFull) && decide (cfg.ampFull ≤ 2 ^ 31 - 1000)

/-- `1 <= RAMP_STEP <= AMP_FULL`. -/
def Config.rampOk (cfg : Config) : Bool :=
  decide (1 ≤ cfg.rampStep) && decide (cfg.rampStep ≤ cfg.ampFull)

/-- `MIN_FREQ <= FREQ_RESET <= MAX_FREQ`. -/
def Config.resetOk (cfg : Config) : Bool :=
  decide (cfg.minFreq ≤ cfg.freqReset) && decide (cfg.freqReset ≤ cfg.maxFreq)

/-- Every constraint of 00_scope.md R1: "a configuration that breaks a constraint is refused". -/
def Config.wellFormed (cfg : Config) : Bool :=
  cfg.tableOk && cfg.periodOk && cfg.freqOk && cfg.slotsOk && cfg.ampOk && cfg.rampOk && cfg.resetOk

/-- An instruction is well formed as a CMD word when it is a command: "TICK and EDGE are not encoded in any word"
(30_encoding.md R87), and every channel value is valid (R83). -/
def Instr.isCommand (i : Instr) : Bool := i.chan?.isSome

end Sys2Proof
end

