-- ==== Sys2Proof/Word.lean ====
section
/-! DEFINITION. The word types of the host interface. -/

namespace Sys2Proof

/-- A register of the host window, and a CMD word: 32 bits (20_memory.md R61, 30_encoding.md R80). -/
abbrev Word := BitVec 32

/-- A sample (00_scope.md R2) or one byte lane of the bus (20_memory.md R63): 8 bits. -/
abbrev Byte := BitVec 8

end Sys2Proof
end

