-- ==== Sys2Proof/Decode.lean ====
section
/-! DEFINITION. The CMD word: decoding it (30_encoding.md R80 to R85), encoding a command, and the opcode table. -/

namespace Sys2Proof

/-- Why a word is ILLEGAL (30_encoding.md R81, R85). A machine that meets one sets STATUS.RESULT and goes on. -/
inductive DecodeError where
  /-- A bit of `RSV` is set. -/
  | reservedBits (rsv : BitVec 27)
  /-- `RSV` is zero and `OP` is 0x0 or 0xA to 0xF. -/
  | reservedOpcode (op : BitVec 4)
  deriving DecidableEq, Repr

/-- `OP = w[3:0]` (R80). -/
def opField (w : Word) : BitVec 4 := w.extractLsb' 0 4

/-- `CH = w[4]`, 0 for A and 1 for B (R80, R83). -/
def chField (w : Word) : Chan := if w.getLsbD 4 then .B else .A

/-- `RSV = w[31:5]` (R80). -/
def rsvField (w : Word) : BitVec 27 := w.extractLsb' 5 27

/-- The opcode map of R82 for a word whose `RSV` is zero. -/
def decodeOp (op : BitVec 4) (c : Chan) : Except DecodeError Instr :=
  match op.toNat with
  | 1 => .ok (.wrFreq c)
  | 2 => .ok (.rdFreq c)
  | 3 => .ok (.wrPhase c)
  | 4 => .ok (.rdPhase c)
  | 5 => .ok (.wrAmp c)
  | 6 => .ok (.rdAmp c)
  | 7 => .ok (.wrHarm c)
  | 8 => .ok (.rdHarm c)
  | 9 => .ok (.clrHarm c)
  | _ => .error (.reservedOpcode op)

/-- Decode of R81. Total: every word is a command of R82 or ILLEGAL. -/
def decode (w : Word) : Except DecodeError Instr :=
  if rsvField w = 0 then decodeOp (opField w) (chField w) else .error (.reservedBits (rsvField w))

/-- The CMD word with opcode `op` on channel `c`: `OP` on A and `OP + 0x10` on B (R82). -/
def cmdWord (op : BitVec 4) (c : Chan) : Word :=
  (0#27 ++ BitVec.ofBool (decide (c = .B))) ++ op

/-- The CMD word of a command (R82); none for TICK and EDGE (R87). -/
def encode : Instr → Option Word
  | .wrFreq c => some (cmdWord 0x1 c)
  | .rdFreq c => some (cmdWord 0x2 c)
  | .wrPhase c => some (cmdWord 0x3 c)
  | .rdPhase c => some (cmdWord 0x4 c)
  | .wrAmp c => some (cmdWord 0x5 c)
  | .rdAmp c => some (cmdWord 0x6 c)
  | .wrHarm c => some (cmdWord 0x7 c)
  | .rdHarm c => some (cmdWord 0x8 c)
  | .clrHarm c => some (cmdWord 0x9 c)
  | .tick => none
  | .edge => none

/-- One CMD row of spec/opcode_table.json. -/
structure OpcodeRow where
  /-- the row's mnemonic -/
  mnemonic : String
  /-- the row's `match` -/
  pattern : Word
  /-- the row's `mask` -/
  mask : Word
  /-- the command, given the channel its CH bit selects -/
  command : Chan → Instr

/-- The nine CMD rows of spec/opcode_table.json: `match` is `OP`, `mask` is every bit but CH (R82). -/
def opcodeTable : List OpcodeRow :=
  [⟨"WR_FREQ", 0x00000001, 0xFFFFFFEF, .wrFreq⟩,
   ⟨"RD_FREQ", 0x00000002, 0xFFFFFFEF, .rdFreq⟩,
   ⟨"WR_PHASE", 0x00000003, 0xFFFFFFEF, .wrPhase⟩,
   ⟨"RD_PHASE", 0x00000004, 0xFFFFFFEF, .rdPhase⟩,
   ⟨"WR_AMP", 0x00000005, 0xFFFFFFEF, .wrAmp⟩,
   ⟨"RD_AMP", 0x00000006, 0xFFFFFFEF, .rdAmp⟩,
   ⟨"WR_HARM", 0x00000007, 0xFFFFFFEF, .wrHarm⟩,
   ⟨"RD_HARM", 0x00000008, 0xFFFFFFEF, .rdHarm⟩,
   ⟨"CLR_HARM", 0x00000009, 0xFFFFFFEF, .clrHarm⟩]

/-- The 32-bit CMD word whose low `nbits` bits are those of `w` and whose other bits are 0. -/
def tableWord (nbits w : Nat) : Word := BitVec.ofNat 32 (w % 2 ^ nbits)

/-- What the decoder reads from a table row's bits. Every command is one 32-bit word (R86), so a row of more than 32
bits is none of them; TICK and EDGE have no bits at all (R87, entry 14). -/
def decodeTableWord (nbits w : Nat) : Option Instr :=
  if nbits ≤ 32 then (decode (tableWord nbits w)).toOption else none

end Sys2Proof
end

