-- ==== Sys2Proof/Machine/Arith.lean ====
section
/-! DEFINITION. The arithmetic primitives of 00_scope.md R4 to R8 and the helper functions of R11. Every value is an
exact integer; `%` on integers is the Euclidean remainder and `/` by a positive integer the floor (R6). -/

namespace Sys2Proof.Machine

/-- `rha(a/d)` for a positive `d`: the nearest integer, halves away from zero (R7). -/
def rha (a : Int) (d : Nat) : Int :=
  if 0 ≤ a then (2 * a + d) / (2 * d) else -((2 * -a + d) / (2 * d))

/-- `clamp(x, lo, hi)` (R8). -/
def clamp (x lo hi : Int) : Int :=
  if x < lo then lo else if hi < x then hi else x

/-- `u32(v) = v mod 2^32`, the 32-bit two's-complement encoding of `v` (R5). -/
def u32 (v : Int) : Word := BitVec.ofInt 32 v

/-- `sext_32(v)`: the word read as two's complement (R5). -/
def sext32 (v : Word) : Int := v.toInt

/-- `step_of(F)`, F in mHz (R11): `(2*N*F*TS_US + 10^9) div (2*10^9)`. -/
def stepOf (cfg : Config) (f : Nat) : Nat :=
  (2 * cfg.n * f * cfg.tsUs + 10 ^ 9) / (2 * 10 ^ 9)

/-- `period_of(F)`, F in mHz (R11): `(10^9 + F*TS_US) div (2*F*TS_US)`. -/
def periodOf (cfg : Config) (f : Nat) : Nat :=
  (10 ^ 9 + f * cfg.tsUs) / (2 * f * cfg.tsUs)

/-- `ticks_of(P)`, P in 0.1-degree units, any sign (R11): `rha(P*N/3600) mod N`. -/
def ticksOf (cfg : Config) (p : Int) : Nat :=
  (rha (p * cfg.n) 3600 % cfg.n).toNat

end Sys2Proof.Machine
end

