-- ==== Sys2Proof/Machine/State.lean ====
section
/-! DEFINITION. The state of the block (10_state.md R48), why a step can stop, and the state after reset (R230). -/

namespace Sys2Proof.Machine

/-- A harmonic slot, `SLOT[c][i]` (10_state.md R31 to R35). -/
structure Slot where
  /-- `ORDER` (R32): 0, or odd and at least 3. -/
  order : Nat
  /-- `STR` (R33), in 0.1 % units. -/
  str : Nat
  /-- `HPH` (R34), signed, in 0.1-degree units, exactly as written. -/
  hph : Int
  /-- `HTK` (R35), in table-index units. -/
  htk : Nat
  deriving DecidableEq, Repr

/-- A slot after reset and after `CLR_HARM` (70_reset_and_hazards.md R230, 41_harmonic_bank.md R115). -/
def Slot.cleared : Slot := ⟨0, 0, 0, 0⟩

/-- The registers of one channel (10_state.md R23 to R31). -/
structure Channel where
  /-- `FREQ[c]` (R23), in mHz. -/
  freq : Nat
  /-- `STEP[c]` (R24), in table-index units per tick. -/
  step : Nat
  /-- `PHASE[c]` (R25), signed, in 0.1-degree units. -/
  phase : Int
  /-- `OFF[c]` (R26), in table-index units. -/
  off : Nat
  /-- `AMP_TGT[c]` (R27), in units of `1/AMP_FULL`. -/
  ampTgt : Nat
  /-- `AMP_CUR[c]` (R29), in units of `1/AMP_FULL`. -/
  ampCur : Nat
  /-- `ACC[c]` (R28), in table-index units. -/
  acc : Nat
  /-- `OUT[c]` (R30), the last output sample. -/
  out : Byte
  /-- `SLOT[c][0]` to `SLOT[c][SLOTS-1]` (R31), in index order. -/
  bank : List Slot
  deriving DecidableEq, Repr

/-- The codes of `STATUS.RESULT` (60_exceptions.md R200). Codes 5 to 7 are never written (entry 11). -/
inductive Code where
  | ok
  | rejectRange
  | rejectCapacity
  | notFound
  | illegal
  deriving DecidableEq, Repr

/-- The levels of the input ports in one clock cycle (10_state.md R46). They are inputs, not state (R47). -/
structure PortsIn where
  /-- `RST` -/
  rst : Bool
  /-- `TICK_IN` -/
  tickIn : Bool
  /-- `SYNC_IN` -/
  syncIn : Bool
  /-- `BUS_WE` -/
  busWe : Bool
  /-- `BUS_RE` -/
  busRe : Bool
  /-- `BUS_ADDR`, a byte offset in the window -/
  busAddr : BitVec 6
  /-- `BUS_WDATA` -/
  busWdata : Word
  /-- `BUS_BE` -/
  busBe : BitVec 4
  deriving DecidableEq, Repr

/-- The complete state (10_state.md R48), with two fields of the model's own: `cfg` and `inputs`. -/
structure State where
  /-- MODEL FIELD (entry 1): the configuration of 00_scope.md R1, which no event changes. -/
  cfg : Config
  /-- Channel A's registers. -/
  chA : Channel
  /-- Channel B's registers. -/
  chB : Channel
  /-- `LEVEL` (R37). -/
  level : Bool
  /-- `ELAPSED` (R38). -/
  elapsed : Nat
  /-- `EDGE_PREV` (R40). -/
  edgePrev : Bool
  /-- `ARG0` (R41). -/
  arg0 : Word
  /-- `ARG1` (R41). -/
  arg1 : Word
  /-- `ARG2` (R41). -/
  arg2 : Word
  /-- `STATUS.RESULT` (R43). -/
  result : Code
  /-- `RES0` (R44). -/
  res0 : Word
  /-- `RES1` (R44). -/
  res1 : Word
  /-- `RES2` (R44). -/
  res2 : Word
  /-- `RES3` (R44). -/
  res3 : Word
  /-- `DAC_STB` (R46, R48): 1 in the cycle after a TICK. -/
  dacStb : Bool
  /-- `BUS_RDATA` (R46): `some v` while the port carries valid data, in the cycle after `BUS_RE` and after reset
  (R230); `none` while it does not (entry 3). -/
  busRdata : Option Word
  /-- MODEL FIELD (entry 2): the ports of the clock cycles to come, first cycle first. -/
  inputs : List PortsIn
  deriving DecidableEq, Repr

/-- "No event raises an exception or a trap" (60_exceptions.md R201): there is no fault, so nothing raises one. -/
inductive Fault where
  deriving DecidableEq, Repr

/-- Why a step gives no next state. Each is a condition on the environment or on the configuration: no instruction is
among them. -/
inductive Refusal where
  /-- An instruction without a meaning. Raised by no arm of `exec`. Safe. -/
  | notModelled (mnemonic : String)
  /-- Raised by the host port: an access that is not 32 bits wide, aligned and with all byte enables
  (20_memory.md R64, I2: "A model refuses such an access"). Safe. -/
  | undefinedAccess
  /-- Raised by the host port: BUS_WE and BUS_RE both 1, which 10_state.md R46 excludes (entry 6). Safe. -/
  | bothStrobes
  /-- Raised by the step: a configuration that breaks a constraint of 00_scope.md R1. Safe. -/
  | badConfig
  deriving DecidableEq, Repr

/-- A channel after reset (10_state.md R48). -/
def Channel.reset (cfg : Config) : Channel where
  freq := cfg.freqReset
  step := stepOf cfg cfg.freqReset
  phase := 0
  off := 0
  ampTgt := 0
  ampCur := 0
  acc := 0
  out := 127#8
  bank := List.replicate cfg.slots Slot.cleared

/-- The state after reset at configuration `cfg`, with `inputs` still to come (R48, R230). -/
def State.resetOf (cfg : Config) (inputs : List PortsIn) : State where
  cfg := cfg
  chA := Channel.reset cfg
  chB := Channel.reset cfg
  level := false
  elapsed := 0
  edgePrev := true
  arg0 := 0
  arg1 := 0
  arg2 := 0
  result := .ok
  res0 := 0
  res1 := 0
  res2 := 0
  res3 := 0
  dacStb := false
  busRdata := some 0
  inputs := inputs

/-- The machine right after reset at the reference configuration, with no input placed (entries 1 and 2). -/
def State.reset : State := State.resetOf Config.reference []

end Sys2Proof.Machine
end

