-- ==== Sys2Proof/Machine/Operands.lean ====
section
/-! DEFINITION. Operand assembly (30_encoding.md R84): "It reads every operand as a signed 32-bit two's-complement
integer". No command has another operand form. -/

namespace Sys2Proof.Machine

/-- `a0 = sext_32(ARG0)` (R84). -/
def State.a0 (s : State) : Int := sext32 s.arg0

/-- `a1 = sext_32(ARG1)` (R84). -/
def State.a1 (s : State) : Int := sext32 s.arg1

/-- `a2 = sext_32(ARG2)` (R84). -/
def State.a2 (s : State) : Int := sext32 s.arg2

end Sys2Proof.Machine
end

