-- ==== Sys2Proof/Machine/Ops.lean ====
section
/-! DEFINITION. The named operations over the registers that the meanings share: a channel's registers, the harmonic
slots, the result registers, and the sequence of two outcomes. The block has no exception to take or return from
(60_exceptions.md R201, R207, R208), so there is no operation for one (entry 10). -/

namespace Sys2Proof.Machine

/-- The registers of channel `c`. -/
def State.chan (s : State) : Chan → Channel
  | .A => s.chA
  | .B => s.chB

/-- `s` with channel `c`'s registers replaced by `ch`. -/
def State.setChan (s : State) (c : Chan) (ch : Channel) : State :=
  match c with
  | .A => { s with chA := ch }
  | .B => { s with chB := ch }

/-- A read command writes all four RES registers (10_state.md R44). -/
def State.writeRes (s : State) (r0 r1 r2 r3 : Word) : State :=
  { s with res0 := r0, res1 := r1, res2 := r2, res3 := r3 }

/-- `status <- code`: the write of `STATUS.RESULT` that ends every command (60_exceptions.md R200). -/
def State.setResult (s : State) (code : Code) : State :=
  { s with result := code }

/-- `active(s)` (00_scope.md R11). -/
def Slot.active (sl : Slot) : Bool := decide (3 ≤ sl.order) && decide (0 < sl.str)

/-- `empty(s)` (00_scope.md R11). A silenced slot is empty too (41_harmonic_bank.md R112). -/
def Slot.empty (sl : Slot) : Bool := decide (sl.order = 0) || decide (sl.str = 0)

/-- The number of active slots of one bank. -/
def activeCount (bank : List Slot) : Nat := bank.countP Slot.active

/-- `count_active()`: the active slots of both channels (41_harmonic_bank.md R111). -/
def State.countActive (s : State) : Nat := activeCount s.chA.bank + activeCount s.chB.bank

/-- The loops "for i in 0 .. SLOTS-1 (ascending): if p: write; return" of 41_harmonic_bank.md R110: the list with its
first member that satisfies `p` replaced by what `f` makes of it, or none where no member does. -/
def setFirst (p : Slot → Bool) (f : Slot → Slot) : List Slot → Option (List Slot)
  | [] => none
  | sl :: rest => if p sl then some (f sl :: rest) else (setFirst p f rest).map (sl :: ·)

/-- `resync()` on one channel: `ACC[c] <- OFF[c]` (44_sync_controller.md R170). -/
def Channel.resync (ch : Channel) : Channel := { ch with acc := ch.off }

/-- `resync()`: both channels together (R170). -/
def State.resync (s : State) : State :=
  { s with chA := s.chA.resync, chB := s.chB.resync }

/-- One event after another: `f` runs on the state `o` leaves, if it leaves one. -/
def chain (o : Host.Outcome State Fault Refusal) (f : State → Host.Outcome State Fault Refusal) :
    Host.Outcome State Fault Refusal :=
  match o with
  | .next s => f s
  | .fault r => .fault r
  | .refused r => .refused r

end Sys2Proof.Machine
end

