-- ==== Sys2Proof/Machine/Harmonic.lean ====
section
/-! DEFINITION. The harmonic bank commands (41_harmonic_bank.md R110 to R117). -/

namespace Sys2Proof.Machine

/-- `s` with channel `c`'s bank replaced. -/
def State.setBank (s : State) (c : Chan) (bank : List Slot) : State :=
  s.setChan c { s.chan c with bank := bank }

/-- The validation of R110: the order odd and at least 3, the strength 0 to 1000. -/
def harmOperandsOk (k str : Int) : Bool :=
  !(decide (k < 3) || decide (k % 2 = 0) || decide (str < 0) || decide (str > 1000))

/-- The in-place update (R114): the slot of order `k` takes a new strength and phase and keeps its order. -/
def updateSlot (cfg : Config) (k str : Nat) (p : Int) (bank : List Slot) : Option (List Slot) :=
  setFirst (fun sl => decide (sl.order = k))
    (fun sl => { sl with str := str, hph := p, htk := ticksOf cfg p }) bank

/-- The claim (R113): the lowest-indexed empty slot takes all four fields. -/
def claimSlot (cfg : Config) (k str : Nat) (p : Int) (bank : List Slot) : Option (List Slot) :=
  setFirst Slot.empty (fun _ => { order := k, str := str, hph := p, htk := ticksOf cfg p }) bank

/-- Steps 2 and 3 of `WR_HARM`, for valid operands (R110, R113, R114). -/
def writeHarm (c : Chan) (k str : Nat) (p : Int) (s : State) : State :=
  match updateSlot s.cfg k str p (s.chan c).bank with
  | some bank => (s.setBank c bank).setResult .ok
  | none =>
    if s.countActive ≥ s.cfg.hcap then s.setResult .rejectCapacity
    else
      match claimSlot s.cfg k str p (s.chan c).bank with
      | some bank => (s.setBank c bank).setResult .ok
      | none => s.setResult .rejectCapacity

/-- `WR_HARM` (R110). -/
def execWrHarm (c : Chan) (s : State) : Host.Outcome State Fault Refusal :=
  if harmOperandsOk s.a0 s.a1 then .next (writeHarm c s.a0.toNat s.a1.toNat s.a2 s)
  else .next (s.setResult .rejectRange)

/-- The active slots of a bank, in slot order: the list `L` of R116. -/
def activeSlots (bank : List Slot) : List Slot := bank.filter Slot.active

/-- The `k`-th active slot, `0 <= k < n` (R116). -/
def nthActive (bank : List Slot) (k : Int) : Option Slot :=
  if 0 ≤ k then (activeSlots bank)[k.toNat]? else none

/-- `RD_HARM` (R116). -/
def execRdHarm (c : Chan) (s : State) : Host.Outcome State Fault Refusal :=
  let n := u32 (activeSlots (s.chan c).bank).length
  match nthActive (s.chan c).bank s.a0 with
  | some sl => .next ((s.writeRes (u32 sl.order) (u32 sl.str) (u32 sl.hph) n).setResult .ok)
  | none => .next ((s.writeRes 0 0 0 n).setResult .notFound)

/-- `CLR_HARM` (R115): every slot of the channel's bank cleared. -/
def execClrHarm (c : Chan) (s : State) : Host.Outcome State Fault Refusal :=
  .next ((s.setBank c ((s.chan c).bank.map fun _ => Slot.cleared)).setResult .ok)

end Sys2Proof.Machine
end

