-- ==== Sys2Proof/Machine/Params.lean ====
section
/-! DEFINITION. The channel parameter commands (42_channel_commands.md R130 to R136). -/

namespace Sys2Proof.Machine

/-- `WR_FREQ` (R130): an out-of-range frequency is rejected and nothing else changes. -/
def execWrFreq (c : Chan) (s : State) : Host.Outcome State Fault Refusal :=
  let f := s.a0
  if f < s.cfg.minFreq ∨ f > s.cfg.maxFreq then .next (s.setResult .rejectRange)
  else
    .next ((s.setChan c { s.chan c with freq := f.toNat, step := stepOf s.cfg f.toNat }).setResult .ok)

/-- `RD_FREQ` (R132). -/
def execRdFreq (c : Chan) (s : State) : Host.Outcome State Fault Refusal :=
  .next ((s.writeRes (u32 (s.chan c).freq) (u32 (s.chan c).step) 0 0).setResult .ok)

/-- `WR_PHASE` (R133): clamped to one turn either way, never rejected. -/
def execWrPhase (c : Chan) (s : State) : Host.Outcome State Fault Refusal :=
  let p := clamp s.a0 (-3600) 3600
  .next ((s.setChan c { s.chan c with phase := p, off := ticksOf s.cfg p }).setResult .ok)

/-- `RD_PHASE` (R134). -/
def execRdPhase (c : Chan) (s : State) : Host.Outcome State Fault Refusal :=
  .next ((s.writeRes (u32 (s.chan c).phase) (u32 (s.chan c).off) 0 0).setResult .ok)

/-- `WR_AMP` (R135): clamped to 0 to 100 %, never rejected; only the target changes. -/
def execWrAmp (c : Chan) (s : State) : Host.Outcome State Fault Refusal :=
  let a := clamp s.a0 0 1000
  .next ((s.setChan c { s.chan c with ampTgt := a.toNat * (s.cfg.ampFull / 1000) }).setResult .ok)

/-- `RD_AMP` (R136). -/
def execRdAmp (c : Chan) (s : State) : Host.Outcome State Fault Refusal :=
  .next ((s.writeRes (u32 (s.chan c).ampCur) (u32 (s.chan c).ampTgt) 0 0).setResult .ok)

end Sys2Proof.Machine
end

