-- ==== Sys2Proof/Machine/Sync.lean ====
section
/-! DEFINITION. The sync controller (44_sync_controller.md R170 to R173): the sync step of a TICK and the EDGE event. -/

namespace Sys2Proof.Machine

/-- `sync_step()` (R172), the last part of every TICK: count, toggle at the period of `FREQ[A]` (R171), resync on the
transition to high only. -/
def syncStep (s : State) : State :=
  if s.elapsed + 1 ≥ periodOf s.cfg s.chA.freq then
    if s.level then { s with level := false, elapsed := 0 }
    else { s with level := true, elapsed := 0 }.resync
  else { s with elapsed := s.elapsed + 1 }

/-- `EDGE` (R173). -/
def execEdge (s : State) : Host.Outcome State Fault Refusal :=
  .next { s with level := true, elapsed := 0 }.resync

end Sys2Proof.Machine
end

