-- ==== Sys2Proof/Machine/Wave.lean ====
section
/-! DEFINITION. The quarter-wave ROM (40_waveform_table.md R100) and its full-cycle reconstruction (R102).

R100 defines an entry by the exact real sine. Here it is computed from a rational lower bound (DEDUCED, entry 4): with
`piLo/10^20 < pi < piHi/10^20`, the sine of `i*pi/(2*QN)` lies between a Taylor sum of even length at the lower angle and
one of odd length at the upper angle. At every legal table size both bounds have the same floor, which is then the floor
of the exact value (`romLo_eq_romHi` of Laws/Wave.lean). -/

namespace Sys2Proof.Machine

/-- The first 21 digits of pi: `piLo / 10^20 < pi`. -/
def piLo : Nat := 314159265358979323846

/-- `pi < piHi / 10^20`. -/
def piHi : Nat := 314159265358979323847

/-- A partial sum of the Taylor series of the sine, as a fraction, with the power of the numerator it has reached. -/
structure SinFrac where
  /-- numerator of the sum -/
  num : Int
  /-- `a^(2m+1)` after `m + 1` terms -/
  pow : Nat
  /-- denominator of the sum: `b^(2m+1) * (2m+1)!` after `m + 1` terms -/
  den : Nat
  deriving DecidableEq, Repr

/-- The first `m + 1` terms of the series of `sin(a/b)`:
`sum over j <= m of (-1)^j * (a/b)^(2j+1) / (2j+1)!`. -/
def sinFrac (a b : Nat) : Nat → SinFrac
  | 0 => ⟨a, a, b⟩
  | m + 1 =>
    let r := sinFrac a b m
    let f := b * b * ((2 * m + 2) * (2 * m + 3))
    let p := r.pow * (a * a)
    ⟨r.num * f + (if m % 2 = 0 then -(p : Int) else p), p, r.den * f⟩

/-- `floor(127.5*x + 128)` for the fraction `x = num/den`. -/
def romFloor (r : SinFrac) : Nat := ((255 * r.num + 256 * r.den) / (2 * r.den)).toNat

/-- A lower bound of entry `i` of the ROM of a table of `n`: fourteen terms at the lower angle. -/
def romLo (n i : Nat) : Nat := romFloor (sinFrac (i * piLo) (2 * (n / 4) * 10 ^ 20) 13)

/-- An upper bound of entry `i`: thirteen terms at the upper angle. No meaning reads it: the laws of the ROM show by it
that the lower bound is exact. -/
def romHi (n i : Nat) : Nat := romFloor (sinFrac (i * piHi) (2 * (n / 4) * 10 ^ 20) 12)

/-- `ROM(i)`, `0 <= i < QN`, for a table of `n` (R100): `floor(127.5*sin(i*pi/(2*QN)) + 128)`, by the lower bound. -/
def rom (n i : Nat) : Nat := romLo n i

/-- `wsample(index)` (R102), any integer index, with the unmodified quadrant-2 mirror (R103). -/
def wsample (n : Nat) (index : Int) : Nat :=
  let q := n / 4
  let idx := (index % n).toNat
  if idx < q then rom n idx
  else if idx < 2 * q then rom n (q - 1 - (idx - q))
  else if idx < 3 * q then 255 - rom n (idx - 2 * q)
  else 255 - rom n (q - 1 - (idx - 3 * q))

end Sys2Proof.Machine
end

