-- ==== Sys2Proof/Machine/Tick.lean ====
section
/-! DEFINITION. The TICK event (43_synthesizer_tick.md R150 to R157). -/

namespace Sys2Proof.Machine

/-- Step 1, `ramp(c)` (R150): one step of at most RAMP_STEP toward the target, or the snap to it. -/
def rampTo (rampStep tgt cur : Nat) : Nat :=
  let d : Int := (tgt : Int) - cur
  if d > rampStep then cur + rampStep
  else if d < -(rampStep : Int) then cur - rampStep
  else tgt

/-- Step 2, the phase index (R151). -/
def phaseIndex (n acc off : Nat) : Nat := (acc + off) % n

/-- What one active slot adds to the sum: `STR * (2*H - 255)` at its harmonic index (R153). -/
def harmonicTerm (n pidx : Nat) (sl : Slot) : Int :=
  let hidx := (sl.order * pidx + sl.htk) % n
  sl.str * (2 * (wsample n hidx : Int) - 255)

/-- Step 4, `mix_inner` (R153): the fundamental and every active slot's term, in slot order. -/
def mixInner (n : Nat) (bank : List Slot) (pidx t : Nat) : Int :=
  bank.foldl (fun acc sl => if sl.active then acc + harmonicTerm n pidx sl else acc) ((2 * (t : Int) - 255) * 1000)

/-- Step 5, `mix_out` (R154): scale, clamp, truncate. -/
def mixOut (ampFull a : Nat) (inner : Int) : Nat :=
  let num : Int := a * inner + 255 * ampFull * 1000
  let den : Int := 2 * ampFull * 1000
  if num < 0 then 0
  else if num ≥ 255 * den then 255
  else (num / den).toNat

/-- Steps 2 to 5 for one channel whose amplitude is already ramped (R151 to R154). -/
def sampleOf (cfg : Config) (ch : Channel) : Nat :=
  let pidx := phaseIndex cfg.n ch.acc ch.off
  let t := wsample cfg.n pidx
  mixOut cfg.ampFull ch.ampCur (mixInner cfg.n ch.bank pidx t)

/-- Step 7, the accumulator advance (R156). -/
def advance (n step acc : Nat) : Nat := (acc + step) % n

/-- Steps 1 to 7 of a TICK on one channel (R157). Steps 2 to 5 read the ramped amplitude and the accumulator before its
advance. The channels are independent, so each is taken through its seven steps at once. -/
def tickChannel (cfg : Config) (ch : Channel) : Channel :=
  let ramped := { ch with ampCur := rampTo cfg.rampStep ch.ampTgt ch.ampCur }
  { ramped with
    out := BitVec.ofNat 8 (sampleOf cfg ramped)
    acc := advance cfg.n ch.step ch.acc }

/-- `TICK` (R157): both channels, `DAC_STB` for the next cycle (R155), then the sync step. -/
def execTick (s : State) : Host.Outcome State Fault Refusal :=
  .next (syncStep { s with
    chA := tickChannel s.cfg s.chA
    chB := tickChannel s.cfg s.chB
    dacStb := true })

end Sys2Proof.Machine
end

