-- ==== Sys2Proof/Machine/Dispatch.lean ====
section
/-! DEFINITION. One arm per row of spec/opcode_table.json. -/

namespace Sys2Proof.Machine

def exec (i : Instr) (s : State) : Host.Outcome State Fault Refusal :=
  match i with
  | .wrFreq c => Sys2Proof.Machine.execWrFreq c s
  | .rdFreq c => Sys2Proof.Machine.execRdFreq c s
  | .wrPhase c => Sys2Proof.Machine.execWrPhase c s
  | .rdPhase c => Sys2Proof.Machine.execRdPhase c s
  | .wrAmp c => Sys2Proof.Machine.execWrAmp c s
  | .rdAmp c => Sys2Proof.Machine.execRdAmp c s
  | .wrHarm c => Sys2Proof.Machine.execWrHarm c s
  | .rdHarm c => Sys2Proof.Machine.execRdHarm c s
  | .clrHarm c => Sys2Proof.Machine.execClrHarm c s
  | .tick => Sys2Proof.Machine.execTick s
  | .edge => Sys2Proof.Machine.execEdge s

end Sys2Proof.Machine
end

