-- ==== Sys2Proof/Machine/Flags.lean ====
section
/-! DEFINITION. The block's flag-like state (10_state.md R22): the codes of STATUS.RESULT and the STATUS and OUTS words
the host reads. There are no condition codes. -/

namespace Sys2Proof.Machine

/-- The 3-bit encoding of a result code (60_exceptions.md R200). -/
def Code.bits : Code → BitVec 3
  | .ok => 0
  | .rejectRange => 1
  | .rejectCapacity => 2
  | .notFound => 3
  | .illegal => 4

/-- `STATUS` (10_state.md R43): RESULT in [2:0], LEVEL in [3], 0 above. -/
def State.statusWord (s : State) : Word :=
  (0#28 ++ BitVec.ofBool s.level) ++ s.result.bits

/-- `OUTS = {16'b0, OUT[B], OUT[A]}` (10_state.md R45). -/
def State.outsWord (s : State) : Word :=
  (0#16 ++ s.chB.out) ++ s.chA.out

end Sys2Proof.Machine
end

