-- ==== Sys2Proof/Machine/HostPort.lean ====
section
/-! DEFINITION. The host register window (20_memory.md R60 to R65) and the output ports (10_state.md R46). -/

namespace Sys2Proof.Machine

/-- The registers of the window (R61). -/
inductive HostReg where
  | arg0
  | arg1
  | arg2
  | cmd
  | status
  | res0
  | res1
  | res2
  | res3
  | outs
  | reserved
  deriving DecidableEq, Repr

/-- The register whose four bytes hold a byte offset (R61); 0x28 to 0x3C are reserved. -/
def hostReg (off : BitVec 6) : HostReg :=
  match off.toNat / 4 with
  | 0 => .arg0
  | 1 => .arg1
  | 2 => .arg2
  | 3 => .cmd
  | 4 => .status
  | 5 => .res0
  | 6 => .res1
  | 7 => .res2
  | 8 => .res3
  | 9 => .outs
  | _ => .reserved

/-- What a host read of a register returns: CMD and the reserved offsets read 0 (R62). -/
def readReg (s : State) : HostReg → Word
  | .arg0 => s.arg0
  | .arg1 => s.arg1
  | .arg2 => s.arg2
  | .cmd => 0
  | .status => s.statusWord
  | .res0 => s.res0
  | .res1 => s.res1
  | .res2 => s.res2
  | .res3 => s.res3
  | .outs => s.outsWord
  | .reserved => 0

/-- The byte of the window at an offset: lane `k` carries bits `[8k+7:8k]` of its register (R63). -/
def readByte (s : State) (off : BitVec 6) : Byte :=
  (readReg s (hostReg off)).extractLsb' (8 * (off.toNat % 4)) 8

/-- A CMD word that is no command (30_encoding.md R81): `status <- ILLEGAL` and nothing else. -/
def illegalCommand (s : State) : State := s.setResult .illegal

/-- A host write to CMD: decode the word and execute it as one event (30_encoding.md R80, R81). -/
def writeCmd (w : Word) (s : State) : Host.Outcome State Fault Refusal :=
  match decode w with
  | .ok i => exec i s
  | .error _ => .next (illegalCommand s)

/-- `HWRITE` of one register: ARG0 to ARG2 store, CMD executes, every other location ignores the write (R62, R65). -/
def hostWrite (r : HostReg) (v : Word) (s : State) : Host.Outcome State Fault Refusal :=
  match r with
  | .arg0 => .next { s with arg0 := v }
  | .arg1 => .next { s with arg1 := v }
  | .arg2 => .next { s with arg2 := v }
  | .cmd => writeCmd v s
  | .status => .next s
  | .res0 => .next s
  | .res1 => .next s
  | .res2 => .next s
  | .res3 => .next s
  | .outs => .next s
  | .reserved => .next s

/-- `HREAD` of one register: the value goes to the read data port and nothing else changes (R65, 00_scope.md R10). -/
def hostRead (r : HostReg) (s : State) : State := { s with busRdata := some (readReg s r) }

/-- "The only defined host access": 4-byte aligned with all four byte enables (R64). -/
def PortsIn.accessDefined (p : PortsIn) : Bool :=
  p.busAddr.extractLsb' 0 2 == 0#2 && p.busBe == 0b1111#4

/-- The host access of one clock cycle, if a strobe is 1. An access the spec does not define is refused (R64), and so is
a cycle with both strobes, which 10_state.md R46 excludes (entry 6). -/
def hostAccess (p : PortsIn) (s : State) : Host.Outcome State Fault Refusal :=
  match p.busWe, p.busRe with
  | false, false => .next s
  | true, true => .refused .bothStrobes
  | true, false =>
    if p.accessDefined then hostWrite (hostReg p.busAddr) p.busWdata s else .refused .undefinedAccess
  | false, true =>
    if p.accessDefined then .next (hostRead (hostReg p.busAddr) s) else .refused .undefinedAccess

/-- The levels of the output ports (10_state.md R46). -/
structure PortsOut where
  /-- `SYNC_OUT` -/
  syncOut : Bool
  /-- `DAC_A` -/
  dacA : Byte
  /-- `DAC_B` -/
  dacB : Byte
  /-- `DAC_STB` -/
  dacStb : Bool
  /-- `BUS_RDATA`, where it carries valid data -/
  busRdata : Option Word
  deriving DecidableEq, Repr

/-- The output ports follow the state: `SYNC_OUT = LEVEL` (R37), `DAC_A` and `DAC_B` equal `OUT` (R46). -/
def portsOut (s : State) : PortsOut where
  syncOut := s.level
  dacA := s.chA.out
  dacB := s.chB.out
  dacStb := s.dacStb
  busRdata := s.busRdata

end Sys2Proof.Machine
end

