-- ==== Sys2Proof/Machine/Cycle.lean ====
section
/-! DEFINITION. One clock cycle: its events in the order of 20_memory.md R70 and 60_exceptions.md R205, the edge detector
(44_sync_controller.md R174), and the reset cycle (70_reset_and_hazards.md R230). -/

namespace Sys2Proof.Machine

/-- A cycle with no strobe and the sync input at `sync`. -/
def PortsIn.idle (sync : Bool) : PortsIn where
  rst := false
  tickIn := false
  syncIn := sync
  busWe := false
  busRe := false
  busAddr := 0
  busWdata := 0
  busBe := 0

/-- `MemWrite(addr, 4, v)` as a bus cycle (00_scope.md R9, 20_memory.md R64). -/
def PortsIn.memWrite (sync : Bool) (addr : BitVec 6) (v : Word) : PortsIn :=
  { PortsIn.idle sync with busWe := true, busAddr := addr, busWdata := v, busBe := 0b1111 }

/-- `MemRead(addr, 4)` as a bus cycle. -/
def PortsIn.memRead (sync : Bool) (addr : BitVec 6) : PortsIn :=
  { PortsIn.idle sync with busRe := true, busAddr := addr, busBe := 0b1111 }

/-- The ports of the next cycle. Where the environment has placed none, the cycle is idle and SYNC_IN keeps the level it
had, so that it makes no edge (DESIGN CHOICE, entry 2; 60_exceptions.md R215). -/
def nextPorts (s : State) : PortsIn :=
  match s.inputs with
  | [] => .idle s.edgePrev
  | p :: _ => p

/-- A cycle with `RST = 1` (R230, R233): every state element takes its reset value and no event is taken. The
configuration is no state (R47), and the cycles to come are the environment's. -/
def resetCycle (s : State) : State := State.resetOf s.cfg s.inputs

/-- What every other cycle does first: EDGE_PREV samples SYNC_IN (R174), DAC_STB falls unless this cycle ticks (R155),
and BUS_RDATA is valid only after a read (10_state.md R46, entry 3). -/
def openCycle (p : PortsIn) (s : State) : State :=
  { s with edgePrev := p.syncIn, dacStb := false, busRdata := none }

/-- `fire <- (SYNC_IN = 1) and (EDGE_PREV = 0)` (R174). -/
def edgeFires (p : PortsIn) (s : State) : Bool := p.syncIn && !s.edgePrev

/-- The TICK of a cycle, if `TICK_IN` is 1. -/
def tickPhase (p : PortsIn) (s : State) : Host.Outcome State Fault Refusal :=
  if p.tickIn then exec .tick s else .next s

/-- The EDGE of a cycle, if the detector fired. -/
def edgePhase (fire : Bool) (s : State) : Host.Outcome State Fault Refusal :=
  if fire then exec .edge s else .next s

/-- One clock cycle: reset, or TICK, then the host access, then EDGE (20_memory.md R70). -/
def runCycle (p : PortsIn) (s : State) : Host.Outcome State Fault Refusal :=
  if p.rst then .next (resetCycle s)
  else
    chain (chain (tickPhase p (openCycle p s)) (hostAccess p)) (edgePhase (edgeFires p s))

end Sys2Proof.Machine
end

