-- ==== Sys2Proof/Machine/Program.lean ====
section
/-! DEFINITION. The assembly language of 30_encoding.md R88: each line and the bus cycles it expands to, the text
commands of R89, and the place of the window in the platform's address map (20_memory.md R61). -/

namespace Sys2Proof.Machine

/-- A line of a host program (R88). -/
inductive AsmLine where
  | wrFreq (c : Chan) (f : Int)
  | rdFreq (c : Chan)
  | wrPhase (c : Chan) (p : Int)
  | rdPhase (c : Chan)
  | wrAmp (c : Chan) (a : Int)
  | rdAmp (c : Chan)
  | wrHarm (c : Chan) (k str p : Int)
  | rdHarm (c : Chan) (k : Int)
  | clrHarm (c : Chan)
  /-- `MemWrite(off, 4, v)`, a plain bus access -/
  | memWrite (off : BitVec 6) (v : Word)
  /-- `LDR name`, given the offset of the name -/
  | ldr (off : BitVec 6)
  /-- `n` TICK events (environment, not host) -/
  | tick (n : Nat)
  /-- one EDGE event (environment, not host) -/
  | edge
  deriving DecidableEq, Repr

/-- `WR_HARM c, k, s` is `WR_HARM c, k, s, 0` (R88). -/
def AsmLine.wrHarmNoPhase (c : Chan) (k str : Int) : AsmLine := .wrHarm c k str 0

/-- The host write of a CMD word, with the sync input low. -/
def cmdCycle (op : BitVec 4) (c : Chan) : PortsIn := .memWrite false 0x0C (cmdWord op c)

/-- The clock cycles a line expands to (R88). Every cycle holds SYNC_IN low but the last cycle of `EDGE`, which raises it
after a low cycle and so makes exactly one edge (DESIGN CHOICE, entry 22). -/
def AsmLine.expand : AsmLine → List PortsIn
  | .wrFreq c f => [.memWrite false 0x00 (u32 f), cmdCycle 0x1 c]
  | .rdFreq c => [cmdCycle 0x2 c]
  | .wrPhase c p => [.memWrite false 0x00 (u32 p), cmdCycle 0x3 c]
  | .rdPhase c => [cmdCycle 0x4 c]
  | .wrAmp c a => [.memWrite false 0x00 (u32 a), cmdCycle 0x5 c]
  | .rdAmp c => [cmdCycle 0x6 c]
  | .wrHarm c k str p =>
    [.memWrite false 0x00 (u32 k), .memWrite false 0x04 (u32 str), .memWrite false 0x08 (u32 p), cmdCycle 0x7 c]
  | .rdHarm c k => [.memWrite false 0x00 (u32 k), cmdCycle 0x8 c]
  | .clrHarm c => [cmdCycle 0x9 c]
  | .memWrite off v => [.memWrite false off v]
  | .ldr off => [.memRead false off]
  | .tick n => List.replicate n { PortsIn.idle false with tickIn := true }
  | .edge => [.idle false, .idle true]

/-- The command whose CMD word a line ends with; none for a plain access and for the environment's lines. -/
def AsmLine.command? : AsmLine → Option Instr
  | .wrFreq c _ => some (.wrFreq c)
  | .rdFreq c => some (.rdFreq c)
  | .wrPhase c _ => some (.wrPhase c)
  | .rdPhase c => some (.rdPhase c)
  | .wrAmp c _ => some (.wrAmp c)
  | .rdAmp c => some (.rdAmp c)
  | .wrHarm c _ _ _ => some (.wrHarm c)
  | .rdHarm c _ => some (.rdHarm c)
  | .clrHarm c => some (.clrHarm c)
  | .memWrite _ _ => none
  | .ldr _ => none
  | .tick _ => none
  | .edge => none

/-- The operand registers as a line leaves them: "Each writes only the ARG registers its opcode reads" (R88). -/
def AsmLine.setArgs (line : AsmLine) (s : State) : State :=
  match line with
  | .wrFreq _ f => { s with arg0 := u32 f }
  | .wrPhase _ p => { s with arg0 := u32 p }
  | .wrAmp _ a => { s with arg0 := u32 a }
  | .wrHarm _ k str p => { s with arg0 := u32 k, arg1 := u32 str, arg2 := u32 p }
  | .rdHarm _ k => { s with arg0 := u32 k }
  | _ => s

/-- The cycles of a program: its lines in order. -/
def assemble (lines : List AsmLine) : List PortsIn := lines.flatMap AsmLine.expand

/-- A decimal number the host's parser has read, as a fraction with a positive denominator. -/
structure Decimal where
  num : Int
  den : Nat
  deriving DecidableEq, Repr

/-- `rha(value * k)`: the host's conversion to the block's units (R89). -/
def Decimal.units (d : Decimal) (k : Nat) : Int := rha (d.num * k) d.den

/-- The text commands of R89, their numbers already parsed. Parsing and reply texts are the host's (00_scope.md). -/
inductive TextCommand where
  | wf (c : Chan) (hz : Decimal)
  | rf (c : Chan)
  | wp (c : Chan) (deg : Decimal)
  | rp (c : Chan)
  | wa (c : Chan) (pct : Decimal)
  | ra (c : Chan)
  | wh (c : Chan) (order : Int) (pct : Decimal) (deg : Option Decimal)
  | rh (c : Chan)
  | whcl (c : Chan)
  | help
  | other
  deriving DecidableEq, Repr

/-- The lines a text command becomes in state `s` (R89). `rh` reads index 0, 1, and so on until NOT_FOUND, which is the
index of the active count (41_harmonic_bank.md R116). -/
def TextCommand.lines (s : State) : TextCommand → List AsmLine
  | .wf c hz => [.wrFreq c (hz.units 1000)]
  | .rf c => [.rdFreq c]
  | .wp c deg => [.wrPhase c (deg.units 10)]
  | .rp c => [.rdPhase c]
  | .wa c pct => [.wrAmp c (pct.units 10)]
  | .ra c => [.rdAmp c]
  | .wh c order pct none => [.wrHarmNoPhase c order (pct.units 10)]
  | .wh c order pct (some deg) => [.wrHarm c order (pct.units 10) (deg.units 10)]
  | .rh c => (List.range (activeCount (s.chan c).bank + 1)).map fun k => .rdHarm c k
  | .whcl c => [.clrHarm c]
  | .help => []
  | .other => []

/-- The byte offset a platform address has in the 64-byte window at BASE; none outside it (20_memory.md R61). -/
def windowOffset (cfg : Config) (addr : Nat) : Option (BitVec 6) :=
  if cfg.base ≤ addr ∧ addr < cfg.base + 64 then some (BitVec.ofNat 6 (addr - cfg.base)) else none

end Sys2Proof.Machine
end

