-- ==== Sys2Proof/Machine/Step.lean ====
section
/-! DEFINITION. The step of the machine: one clock cycle (entry 9). -/

namespace Sys2Proof.Machine

/-- One clock cycle with the next ports the environment has placed. A configuration that breaks a constraint of
00_scope.md R1 is refused. -/
def step (s : State) : Host.Outcome State Fault Refusal :=
  if s.cfg.wellFormed then runCycle (nextPorts s) { s with inputs := s.inputs.tail }
  else .refused .badConfig

/-- `s` with the host write of a CMD word as its next cycle, SYNC_IN at the level it had: the next step runs exactly that
command (entry 2). -/
def State.withFetchWord (s : State) (nbits w : Nat) : State :=
  { s with inputs := .memWrite s.edgePrev 0x0C (tableWord nbits w) :: s.inputs }

end Sys2Proof.Machine
end

