-- ==== Sys2Proof/Safety.lean ====
section
/-! DEFINITION. The terms claims are stated in: runs of events and of clock cycles, the invariant of 10_state.md R36 and
R49, what the host can observe (R50), and rounding of rationals (00_scope.md R7). -/

namespace Sys2Proof.Machine

/-- A sequence of events of the opcode table, first event first (00_scope.md R10). -/
def execAll : List Instr → State → Host.Outcome State Fault Refusal
  | [], s => .next s
  | i :: is, s => chain (exec i s) (execAll is)

/-- `k` TICK events with nothing between them: the line `TICK n` of 30_encoding.md R88. -/
def execTicks (k : Nat) (s : State) : Host.Outcome State Fault Refusal :=
  execAll (List.replicate k .tick) s

/-- `k` clock cycles. -/
def runSteps : Nat → State → Host.Outcome State Fault Refusal
  | 0, s => .next s
  | k + 1, s => chain (step s) (runSteps k)

/-- What R36 and 10_state.md R32 to R35 say of one slot. The bounds of `order` and `hph` are those of signed 32-bit
operands (92_eei_decisions.md D35). -/
abbrev Slot.Ok (cfg : Config) (sl : Slot) : Prop :=
  (sl.order = 0 → sl.str = 0 ∧ sl.hph = 0 ∧ sl.htk = 0) ∧
  (sl.order = 0 ∨ (3 ≤ sl.order ∧ sl.order % 2 = 1)) ∧
  sl.order < 2 ^ 31 ∧
  sl.str ≤ 1000 ∧
  (-2 ^ 31 ≤ sl.hph ∧ sl.hph < 2 ^ 31) ∧
  sl.htk = ticksOf cfg sl.hph

/-- "Within one channel's bank, no two slots have the same nonzero `ORDER`" (R36). -/
abbrev DistinctOrders (bank : List Slot) : Prop :=
  bank.Pairwise fun a b => a.order ≠ 0 → a.order ≠ b.order

/-- The ranges and derived values of one channel's registers (10_state.md R23 to R31, R36). -/
structure Channel.Ok (cfg : Config) (ch : Channel) : Prop where
  freq : cfg.minFreq ≤ ch.freq ∧ ch.freq ≤ cfg.maxFreq
  step : ch.step = stepOf cfg ch.freq
  phase : -3600 ≤ ch.phase ∧ ch.phase ≤ 3600
  off : ch.off = ticksOf cfg ch.phase
  ampTgt : ch.ampTgt ≤ cfg.ampFull ∧ cfg.ampFull / 1000 ∣ ch.ampTgt
  ampCur : ch.ampCur ≤ cfg.ampFull
  acc : ch.acc < cfg.n
  slots : ch.bank.length = cfg.slots
  bank : ∀ sl ∈ ch.bank, Slot.Ok cfg sl
  orders : DistinctOrders ch.bank

/-- The invariant of R49 (points 1, 2, 4) with the register ranges of R23 to R38. ELAPSED is bounded by the longest
period, `period_of(MIN_FREQ)` (R38): R49's sharper bound does not survive a `WR_FREQ` (entry 15). -/
structure State.Inv (s : State) : Prop where
  cfg : s.cfg.wellFormed = true
  chA : Channel.Ok s.cfg s.chA
  chB : Channel.Ok s.cfg s.chB
  elapsed : s.elapsed < max 1 (periodOf s.cfg s.cfg.minFreq)

/-- What the host can observe of one channel through read commands and OUTS (10_state.md R50). -/
structure ChannelView where
  freq : Nat
  step : Nat
  phase : Int
  off : Nat
  ampTgt : Nat
  ampCur : Nat
  out : Byte
  /-- the active slots in slot order: ORDER, STR, HPH -/
  harmonics : List (Nat × Nat × Int)
  deriving DecidableEq, Repr

/-- The observable part of a channel: neither ACC nor HTK nor an inactive slot. -/
def Channel.view (ch : Channel) : ChannelView where
  freq := ch.freq
  step := ch.step
  phase := ch.phase
  off := ch.off
  ampTgt := ch.ampTgt
  ampCur := ch.ampCur
  out := ch.out
  harmonics := (activeSlots ch.bank).map fun sl => (sl.order, sl.str, sl.hph)

/-- Everything the host can observe (R50): the channels' views, LEVEL, and its own window registers; not ELAPSED and not
EDGE_PREV. -/
structure HostView where
  chA : ChannelView
  chB : ChannelView
  level : Bool
  arg0 : Word
  arg1 : Word
  arg2 : Word
  result : Code
  res0 : Word
  res1 : Word
  res2 : Word
  res3 : Word
  deriving DecidableEq, Repr

/-- The host's view of a state. -/
def State.view (s : State) : HostView where
  chA := s.chA.view
  chB := s.chB.view
  level := s.level
  arg0 := s.arg0
  arg1 := s.arg1
  arg2 := s.arg2
  result := s.result
  res0 := s.res0
  res1 := s.res1
  res2 := s.res2
  res3 := s.res3

/-- The four read commands (10_state.md R44). -/
def isReadCommand : Instr → Bool
  | .rdFreq _ => true
  | .rdPhase _ => true
  | .rdAmp _ => true
  | .rdHarm _ => true
  | _ => false

/-- `rha(x)` of a rational `x` (00_scope.md R7). -/
def rhaQ (x : ℚ) : ℤ := if 0 ≤ x then ⌊x + 1 / 2⌋ else -⌊-x + 1 / 2⌋

end Sys2Proof.Machine
end

