-- ==== Sys2Proof/Certificates/Slice0/Obligations.lean ====
section
/-! DEFINITION. The statements for the provers. Rules are those of spec/; "entry" is notes/assumptions/. -/

open Sys2Proof Sys2Proof.Machine

/-- 30_encoding.md R80, R82, R87: the decoder and the encoder are inverse of each other, over every word. -/
def Obligations.DecodeIffEncode : Prop :=
  (∀ (w : Word) (i : Instr), decode w = .ok i ↔ encode i = some w) ∧
  (∀ i : Instr, i.isCommand = true → ∃ w, encode i = some w ∧ decode w = .ok i)

/-- 30_encoding.md R82, R83: decoding agrees with the `match` and `mask` of every CMD row. -/
def Obligations.DecodeFollowsOpcodeTable : Prop :=
  ∀ (w : Word) (r : OpcodeRow) (c : Chan), r ∈ opcodeTable →
    (decode w = .ok (r.command c) ↔ w &&& r.mask = r.pattern ∧ chField w = c)

/-- 30_encoding.md R81. -/
def Obligations.CmdWriteRunsDecodedCommand : Prop :=
  ∀ (w : Word) (s : State),
    (∀ i : Instr, rsvField w = 0 →
      (opField w, i) ∈ [((0x1 : BitVec 4), Instr.wrFreq (chField w)), (0x2, .rdFreq (chField w)),
        (0x3, .wrPhase (chField w)), (0x4, .rdPhase (chField w)), (0x5, .wrAmp (chField w)),
        (0x6, .rdAmp (chField w)), (0x7, .wrHarm (chField w)), (0x8, .rdHarm (chField w)),
        (0x9, .clrHarm (chField w))] →
      writeCmd w s = exec i s) ∧
    (rsvField w ≠ 0 ∨ opField w = 0 ∨ 0xA ≤ (opField w).toNat →
      writeCmd w s = .next { s with result := .illegal })

/-- 95_test_vectors.md V3, from the format of 30_encoding.md R80 and the opcodes of R82. -/
def Obligations.SampleCmdWordsDecode : Prop :=
  decode 0x00000001 = .ok (.wrFreq .A) ∧ decode 0x00000011 = .ok (.wrFreq .B) ∧
  decode 0x00000002 = .ok (.rdFreq .A) ∧ decode 0x00000013 = .ok (.wrPhase .B) ∧
  decode 0x00000004 = .ok (.rdPhase .A) ∧ decode 0x00000015 = .ok (.wrAmp .B) ∧
  decode 0x00000006 = .ok (.rdAmp .A) ∧ decode 0x00000017 = .ok (.wrHarm .B) ∧
  decode 0x00000008 = .ok (.rdHarm .A) ∧ decode 0x00000019 = .ok (.clrHarm .B) ∧
  decode 0x00000000 = .error (.reservedOpcode 0x0) ∧ decode 0x0000001A = .error (.reservedOpcode 0xA) ∧
  decode 0x0000000F = .error (.reservedOpcode 0xF) ∧ decode 0x00000027 = .error (.reservedBits 0x1) ∧
  decode 0x80000001 = .error (.reservedBits 0x4000000)

/-- 30_encoding.md R80, R81, R85 and 20_memory.md R61, R62: the step runs the command that the written word encodes, and
every other host write has the effect of its register. `busRdata := none` in such a cycle is the model's choice (entry 3,
DESIGN CHOICE). -/
def Obligations.StepAppliesHostWrite : Prop :=
  ∀ (s : State) (p : PortsIn) (rest : List PortsIn),
    s.cfg.wellFormed = true → s.inputs = p :: rest →
    p.rst = false → p.tickIn = false → ¬(p.syncIn = true ∧ s.edgePrev = false) →
    p.busWe = true → p.busRe = false → p.busBe = 0b1111 →
    (p.busAddr = 0x0C → ∀ i : Instr, decode p.busWdata = .ok i →
      step s = exec i { s with inputs := rest, edgePrev := p.syncIn, dacStb := false, busRdata := none }) ∧
    (p.busAddr = 0x0C →
      rsvField p.busWdata ≠ 0 ∨ opField p.busWdata = 0 ∨ 0xA ≤ (opField p.busWdata).toNat →
      step s = .next { s with
        inputs := rest, edgePrev := p.syncIn, dacStb := false, busRdata := none, result := .illegal }) ∧
    (p.busAddr = 0x00 → step s = .next { s with
      inputs := rest, edgePrev := p.syncIn, dacStb := false, busRdata := none, arg0 := p.busWdata }) ∧
    (p.busAddr = 0x04 → step s = .next { s with
      inputs := rest, edgePrev := p.syncIn, dacStb := false, busRdata := none, arg1 := p.busWdata }) ∧
    (p.busAddr = 0x08 → step s = .next { s with
      inputs := rest, edgePrev := p.syncIn, dacStb := false, busRdata := none, arg2 := p.busWdata }) ∧
    (0x10 ≤ p.busAddr.toNat → p.busAddr.toNat % 4 = 0 → step s = .next { s with
      inputs := rest, edgePrev := p.syncIn, dacStb := false, busRdata := none })

/-- 30_encoding.md R87: TICK is a cycle with TICK_IN = 1, EDGE a detected rising edge of SYNC_IN.
`busRdata := none` in such a cycle is the model's choice (entry 3, DESIGN CHOICE). -/
def Obligations.StepRunsTickAndEdgeCycles : Prop :=
  ∀ (s : State) (p : PortsIn) (rest : List PortsIn),
    s.cfg.wellFormed = true → s.inputs = p :: rest → p.rst = false → p.busWe = false → p.busRe = false →
    (p.tickIn = true → ¬(p.syncIn = true ∧ s.edgePrev = false) →
      step s = exec .tick { s with inputs := rest, edgePrev := p.syncIn, dacStb := false, busRdata := none }) ∧
    (p.tickIn = false → p.syncIn = true → s.edgePrev = false →
      step s = exec .edge { s with inputs := rest, edgePrev := true, dacStb := false, busRdata := none })

/-- 20_memory.md R70: the fixed order of the events of one cycle, with the host access spelled out by R61, R62, R65 and
30_encoding.md R81. `busRdata := none` before the events is the model's choice (entry 3, DESIGN CHOICE). -/
def Obligations.CycleAppliesTickThenHostThenEdge : Prop :=
  ∀ (s : State) (p : PortsIn) (rest : List PortsIn),
    s.cfg.wellFormed = true → s.inputs = p :: rest → p.rst = false →
    (step s =
      chain (chain
        (if p.tickIn = true then
          exec .tick { s with inputs := rest, edgePrev := p.syncIn, dacStb := false, busRdata := none }
        else .next { s with inputs := rest, edgePrev := p.syncIn, dacStb := false, busRdata := none })
        (hostAccess p))
        (fun t => if p.syncIn = true ∧ s.edgePrev = false then exec .edge t else .next t)) ∧
    ∀ u : State,
      (p.busWe = false → p.busRe = false → hostAccess p u = .next u) ∧
      (p.busWe = false → p.busRe = true → p.busAddr.toNat % 4 = 0 → p.busBe = 0b1111 →
        hostAccess p u = .next { u with busRdata := some (readReg u (hostReg p.busAddr)) }) ∧
      (p.busWe = true → p.busRe = false → p.busBe = 0b1111 →
        (p.busAddr = 0x00 → hostAccess p u = .next { u with arg0 := p.busWdata }) ∧
        (p.busAddr = 0x04 → hostAccess p u = .next { u with arg1 := p.busWdata }) ∧
        (p.busAddr = 0x08 → hostAccess p u = .next { u with arg2 := p.busWdata }) ∧
        (p.busAddr = 0x0C → ∀ i : Instr, decode p.busWdata = .ok i → hostAccess p u = exec i u) ∧
        (p.busAddr = 0x0C →
          rsvField p.busWdata ≠ 0 ∨ opField p.busWdata = 0 ∨ 0xA ≤ (opField p.busWdata).toNat →
          hostAccess p u = .next { u with result := .illegal }) ∧
        (0x10 ≤ p.busAddr.toNat → p.busAddr.toNat % 4 = 0 → hostAccess p u = .next u))

/-- 70_reset_and_hazards.md R233: a reset in any cycle has the same effect, and nothing else of its cycle is applied. -/
def Obligations.ResetCycleRestoresResetState : Prop :=
  ∀ (s : State) (p : PortsIn) (rest : List PortsIn),
    s.cfg.wellFormed = true → s.inputs = p :: rest → p.rst = true →
    step s = .next (State.resetOf s.cfg rest)

/-- 10_state.md R48 and the table of 70_reset_and_hazards.md R230. (`cfg` and `inputs` are the model's own fields,
entries 1 and 2.) -/
def Obligations.ResetLeavesStatedValues : Prop :=
  (∀ (cfg : Config) (ins : List PortsIn) (c : Chan),
    let s := State.resetOf cfg ins
    s.chan c = { freq := cfg.freqReset, step := stepOf cfg cfg.freqReset, phase := 0, off := 0, ampTgt := 0,
                 ampCur := 0, acc := 0, out := 127#8, bank := List.replicate cfg.slots ⟨0, 0, 0, 0⟩ } ∧
    s.level = false ∧ s.elapsed = 0 ∧ s.edgePrev = true ∧ s.arg0 = 0 ∧ s.arg1 = 0 ∧ s.arg2 = 0 ∧
    s.result = .ok ∧ s.res0 = 0 ∧ s.res1 = 0 ∧ s.res2 = 0 ∧ s.res3 = 0 ∧ s.dacStb = false ∧
    s.statusWord = 0 ∧ s.outsWord = 0x00007F7F ∧
    portsOut s = { syncOut := false, dacA := 127#8, dacB := 127#8, dacStb := false, busRdata := some 0 }) ∧
  (∀ c : Chan, (State.reset.chan c).freq = 50000 ∧ (State.reset.chan c).step = 3)

/-- 70_reset_and_hazards.md R248: when the value of a host read is taken. -/
def Obligations.HostReadDataAfterTick : Prop :=
  ∀ (s : State) (p : PortsIn) (rest : List PortsIn),
    s.cfg.wellFormed = true → s.inputs = p :: rest → p.rst = false →
    p.busWe = false → p.busRe = true → p.busAddr.toNat % 4 = 0 → p.busBe = 0b1111 →
    ∃ t u : State,
      (if p.tickIn = true then
        exec .tick { s with inputs := rest, edgePrev := p.syncIn, dacStb := false, busRdata := none }
      else .next { s with inputs := rest, edgePrev := p.syncIn, dacStb := false, busRdata := none }) = .next t ∧
      (if p.syncIn = true ∧ s.edgePrev = false then
        exec .edge { t with busRdata := some (readReg t (hostReg p.busAddr)) }
      else .next { t with busRdata := some (readReg t (hostReg p.busAddr)) }) = .next u ∧
      step s = .next u ∧ u.busRdata = some (readReg t (hostReg p.busAddr))

/-- 20_memory.md R61 with 10_state.md R41 to R45 and the codes of 60_exceptions.md R200. -/
def Obligations.WindowRegisterMap : Prop :=
  ∀ (s : State) (v : Word),
    readReg s (hostReg 0x00) = s.arg0 ∧ hostWrite (hostReg 0x00) v s = .next { s with arg0 := v } ∧
    readReg s (hostReg 0x04) = s.arg1 ∧ hostWrite (hostReg 0x04) v s = .next { s with arg1 := v } ∧
    readReg s (hostReg 0x08) = s.arg2 ∧ hostWrite (hostReg 0x08) v s = .next { s with arg2 := v } ∧
    hostWrite (hostReg 0x0C) v s = writeCmd v s ∧
    (readReg s (hostReg 0x10)).toNat =
      (match s.result with | .ok => 0 | .rejectRange => 1 | .rejectCapacity => 2 | .notFound => 3 | .illegal => 4) +
        (if s.level = true then 8 else 0) ∧
    readReg s (hostReg 0x14) = s.res0 ∧ readReg s (hostReg 0x18) = s.res1 ∧
    readReg s (hostReg 0x1C) = s.res2 ∧ readReg s (hostReg 0x20) = s.res3 ∧
    (readReg s (hostReg 0x24)).toNat = s.chA.out.toNat + 256 * s.chB.out.toNat

/-- 20_memory.md R62. -/
def Obligations.ReservedAndReadOnlyAccesses : Prop :=
  ∀ (s : State) (off : BitVec 6) (v : Word),
    (0x28 ≤ off.toNat → readReg s (hostReg off) = 0) ∧
    readReg s (hostReg 0x0C) = 0 ∧
    (0x10 ≤ off.toNat → hostWrite (hostReg off) v s = .next s) ∧
    hostRead (hostReg off) s = { s with busRdata := some (readReg s (hostReg off)) }

/-- 20_memory.md R63: little-endian byte lanes. -/
def Obligations.ByteLanesAreLittleEndian : Prop :=
  ∀ s : State,
    (∀ a : BitVec 6, a.toNat % 4 = 0 →
      readReg s (hostReg a) = ((readByte s (a + 3) ++ readByte s (a + 2)) ++ readByte s (a + 1)) ++ readByte s a) ∧
    readByte s 0x24 = s.chA.out ∧ readByte s 0x25 = s.chB.out

/-- 20_memory.md R64: "A model refuses such an access". -/
def Obligations.UndefinedAccessIsRefused : Prop :=
  ∀ (s : State) (p : PortsIn) (rest : List PortsIn),
    s.cfg.wellFormed = true → s.inputs = p :: rest → p.rst = false →
    p.busWe ≠ p.busRe → (p.busAddr.toNat % 4 ≠ 0 ∨ p.busBe ≠ 0b1111) →
    step s = .refused .undefinedAccess

/-- 60_exceptions.md R201: "The only non-modelled outcome is a host access the spec does not define." The refusal of two
strobes is the model's reading of 10_state.md R46 (entry 6), the idle cycle its choice (entry 2), and so is the refusal of an
illegal configuration in every cycle, a reset cycle too (entry 8, DESIGN CHOICE). -/
def Obligations.StepCompletesExactlyOnDefinedCycles : Prop :=
  ∀ s : State, (∃ t, step s = .next t) ↔
    (s.cfg.wellFormed = true ∧
      ((nextPorts s).rst = true ∨
        (¬((nextPorts s).busWe = true ∧ (nextPorts s).busRe = true) ∧
          ((nextPorts s).busWe = true ∨ (nextPorts s).busRe = true →
            (nextPorts s).busAddr.toNat % 4 = 0 ∧ (nextPorts s).busBe = 0b1111))))

/-- 60_exceptions.md R215: with no strobe every register holds its value. `busRdata := none` in such a
cycle is the model's choice (entry 3, DESIGN CHOICE). -/
def Obligations.IdleCycleHoldsState : Prop :=
  ∀ (s : State) (p : PortsIn) (rest : List PortsIn),
    s.cfg.wellFormed = true → s.inputs = p :: rest → p.rst = false → p.tickIn = false →
    p.busWe = false → p.busRe = false → ¬(p.syncIn = true ∧ s.edgePrev = false) →
    step s = .next { s with inputs := rest, edgePrev := p.syncIn, dacStb := false, busRdata := none }

/-- 44_sync_controller.md R174 and 43_synthesizer_tick.md R155, over whole cycles. -/
def Obligations.EdgePrevSamplesSyncIn : Prop :=
  ∀ s t : State, step s = .next t →
    ((nextPorts s).rst = false → t.edgePrev = (nextPorts s).syncIn ∧ t.dacStb = (nextPorts s).tickIn) ∧
    ((nextPorts s).rst = true → t.edgePrev = true ∧ t.dacStb = false)

/-- 44_sync_controller.md R173: the edge's result holds at the end of its cycle, whatever the tick did. -/
def Obligations.EdgeWinsItsCycle : Prop :=
  ∀ s t : State, (nextPorts s).rst = false → (nextPorts s).syncIn = true → s.edgePrev = false →
    step s = .next t →
    t.level = true ∧ t.elapsed = 0 ∧ ∀ c : Chan, (t.chan c).acc = (t.chan c).off

/-- 42_channel_commands.md R130. -/
def Obligations.WrFreqSetsOrRejects : Prop :=
  ∀ (s : State) (c : Chan),
    ((s.cfg.minFreq : Int) ≤ s.arg0.toInt ∧ s.arg0.toInt ≤ s.cfg.maxFreq →
      exec (.wrFreq c) s = .next (State.setChan { s with result := .ok } c
        { s.chan c with freq := s.arg0.toInt.toNat, step := stepOf s.cfg s.arg0.toInt.toNat })) ∧
    (s.arg0.toInt < s.cfg.minFreq ∨ s.cfg.maxFreq < s.arg0.toInt →
      exec (.wrFreq c) s = .next { s with result := .rejectRange })

/-- 42_channel_commands.md R132, R134, R136. -/
def Obligations.ParameterReadResults : Prop :=
  ∀ (s : State) (c : Chan),
    exec (.rdFreq c) s = .next { s with
      res0 := BitVec.ofNat 32 (s.chan c).freq, res1 := BitVec.ofNat 32 (s.chan c).step, res2 := 0, res3 := 0,
      result := .ok } ∧
    exec (.rdPhase c) s = .next { s with
      res0 := BitVec.ofInt 32 (s.chan c).phase, res1 := BitVec.ofNat 32 (s.chan c).off, res2 := 0, res3 := 0,
      result := .ok } ∧
    exec (.rdAmp c) s = .next { s with
      res0 := BitVec.ofNat 32 (s.chan c).ampCur, res1 := BitVec.ofNat 32 (s.chan c).ampTgt, res2 := 0, res3 := 0,
      result := .ok }

/-- 42_channel_commands.md R133. -/
def Obligations.WrPhaseClampsAndSets : Prop :=
  ∀ (s : State) (c : Chan),
    exec (.wrPhase c) s = .next (State.setChan { s with result := .ok } c
      { s.chan c with
        phase := min (max s.arg0.toInt (-3600)) 3600
        off := ticksOf s.cfg (min (max s.arg0.toInt (-3600)) 3600) })

/-- 42_channel_commands.md R135. -/
def Obligations.WrAmpClampsAndSetsTarget : Prop :=
  ∀ (s : State) (c : Chan),
    exec (.wrAmp c) s = .next (State.setChan { s with result := .ok } c
      { s.chan c with ampTgt := (min (max s.arg0.toInt 0) 1000).toNat * (s.cfg.ampFull / 1000) })

/-- 41_harmonic_bank.md R110, step 1; 60_exceptions.md R206: the range check comes before the capacity check. -/
def Obligations.WrHarmRejectsBadOperands : Prop :=
  ∀ (s : State) (c : Chan),
    s.arg0.toInt < 3 ∨ s.arg0.toInt % 2 = 0 ∨ s.arg1.toInt < 0 ∨ 1000 < s.arg1.toInt →
    exec (.wrHarm c) s = .next { s with result := .rejectRange }

/-- 41_harmonic_bank.md R114. -/
def Obligations.WrHarmUpdatesInPlace : Prop :=
  ∀ (s : State) (c : Chan) (pre post : List Slot) (sl : Slot),
    3 ≤ s.arg0.toInt → s.arg0.toInt % 2 = 1 → 0 ≤ s.arg1.toInt → s.arg1.toInt ≤ 1000 →
    (s.chan c).bank = pre ++ sl :: post → (∀ x ∈ pre, (x.order : Int) ≠ s.arg0.toInt) →
    (sl.order : Int) = s.arg0.toInt →
    exec (.wrHarm c) s = .next (State.setChan { s with result := .ok } c
      { s.chan c with
        bank := pre ++ { sl with
          str := s.arg1.toInt.toNat, hph := s.arg2.toInt, htk := ticksOf s.cfg s.arg2.toInt } :: post })

/-- 41_harmonic_bank.md R113. -/
def Obligations.WrHarmClaimsLowestEmptySlot : Prop :=
  ∀ (s : State) (c : Chan) (pre post : List Slot) (sl : Slot),
    3 ≤ s.arg0.toInt → s.arg0.toInt % 2 = 1 → 0 ≤ s.arg1.toInt → s.arg1.toInt ≤ 1000 →
    (∀ x ∈ (s.chan c).bank, (x.order : Int) ≠ s.arg0.toInt) →
    (s.chA.bank.filter Slot.active).length + (s.chB.bank.filter Slot.active).length < s.cfg.hcap →
    (s.chan c).bank = pre ++ sl :: post → (∀ x ∈ pre, x.order ≠ 0 ∧ x.str ≠ 0) → (sl.order = 0 ∨ sl.str = 0) →
    exec (.wrHarm c) s = .next (State.setChan { s with result := .ok } c
      { s.chan c with
        bank := pre ++ ⟨s.arg0.toInt.toNat, s.arg1.toInt.toNat, s.arg2.toInt, ticksOf s.cfg s.arg2.toInt⟩ :: post })

/-- 41_harmonic_bank.md R110, step 3, and R113. -/
def Obligations.WrHarmRejectsForCapacity : Prop :=
  ∀ (s : State) (c : Chan),
    3 ≤ s.arg0.toInt → s.arg0.toInt % 2 = 1 → 0 ≤ s.arg1.toInt → s.arg1.toInt ≤ 1000 →
    (∀ x ∈ (s.chan c).bank, (x.order : Int) ≠ s.arg0.toInt) →
    (s.cfg.hcap ≤ (s.chA.bank.filter Slot.active).length + (s.chB.bank.filter Slot.active).length ∨
      ∀ x ∈ (s.chan c).bank, x.order ≠ 0 ∧ x.str ≠ 0) →
    exec (.wrHarm c) s = .next { s with result := .rejectCapacity }

/-- 41_harmonic_bank.md R116. -/
def Obligations.RdHarmListsActiveSlots : Prop :=
  ∀ (s : State) (c : Chan),
    let listed := (s.chan c).bank.filter fun sl => decide (3 ≤ sl.order) && decide (0 < sl.str)
    (∀ sl : Slot, 0 ≤ s.arg0.toInt → listed[s.arg0.toInt.toNat]? = some sl →
      exec (.rdHarm c) s = .next { s with
        res0 := BitVec.ofNat 32 sl.order, res1 := BitVec.ofNat 32 sl.str, res2 := BitVec.ofInt 32 sl.hph,
        res3 := BitVec.ofNat 32 listed.length, result := .ok }) ∧
    (s.arg0.toInt < 0 ∨ (listed.length : Int) ≤ s.arg0.toInt →
      exec (.rdHarm c) s = .next { s with
        res0 := 0, res1 := 0, res2 := 0, res3 := BitVec.ofNat 32 listed.length, result := .notFound })

/-- 41_harmonic_bank.md R115. -/
def Obligations.ClrHarmClearsBank : Prop :=
  ∀ (s : State) (c : Chan),
    exec (.clrHarm c) s = .next (State.setChan { s with result := .ok } c
      { s.chan c with bank := List.replicate (s.chan c).bank.length ⟨0, 0, 0, 0⟩ })

/-- 43_synthesizer_tick.md R157 with 44_sync_controller.md R172: the whole effect of a TICK, and its frame. -/
def Obligations.TickEffect : Prop :=
  ∀ s : State, ∃ t : State, exec .tick s = .next t ∧
    (∀ c : Chan, t.chan c = { s.chan c with
      ampCur := rampTo s.cfg.rampStep (s.chan c).ampTgt (s.chan c).ampCur
      out := BitVec.ofNat 8
        (mixOut s.cfg.ampFull (rampTo s.cfg.rampStep (s.chan c).ampTgt (s.chan c).ampCur)
          (mixInner s.cfg.n (s.chan c).bank (((s.chan c).acc + (s.chan c).off) % s.cfg.n)
            (wsample s.cfg.n (((s.chan c).acc + (s.chan c).off) % s.cfg.n : Nat))))
      acc := if periodOf s.cfg s.chA.freq ≤ s.elapsed + 1 ∧ s.level = false then (s.chan c).off
        else ((s.chan c).acc + (s.chan c).step) % s.cfg.n }) ∧
    t = { s with
      chA := t.chA
      chB := t.chB
      level := if periodOf s.cfg s.chA.freq ≤ s.elapsed + 1 then !s.level else s.level
      elapsed := if periodOf s.cfg s.chA.freq ≤ s.elapsed + 1 then 0 else s.elapsed + 1
      dacStb := true }

/-- 44_sync_controller.md R173 and R170, with the idempotence R173 states. -/
def Obligations.EdgeEffect : Prop :=
  ∀ s : State,
    exec .edge s = .next { s with
      level := true, elapsed := 0
      chA := { s.chA with acc := s.chA.off }
      chB := { s.chB with acc := s.chB.off } } ∧
    execAll [.edge, .edge] s = exec .edge s

/-- 43_synthesizer_tick.md R150: the linear ramp, its duration and its end. -/
def Obligations.RampReachesTargetOnTime : Prop :=
  ∀ (s : State) (k : Nat), ∃ t : State, execTicks k s = .next t ∧
    ∀ c : Chan, (t.chan c).ampTgt = (s.chan c).ampTgt ∧
      (t.chan c).ampCur =
        if (s.chan c).ampCur ≤ (s.chan c).ampTgt then
          min (s.chan c).ampTgt ((s.chan c).ampCur + k * s.cfg.rampStep)
        else max (s.chan c).ampTgt ((s.chan c).ampCur - k * s.cfg.rampStep)

/-- 10_state.md R49, point 3. -/
def Obligations.AmplitudeMovesAtMostRampStep : Prop :=
  ∀ (i : Instr) (s t : State), exec i s = .next t → ∀ c : Chan,
    |((t.chan c).ampCur : Int) - (s.chan c).ampCur| ≤ s.cfg.rampStep ∧
    (i ≠ .tick → (t.chan c).ampCur = (s.chan c).ampCur)

/-- 43_synthesizer_tick.md R154: the clamp comes before the truncation, and the value is exact. -/
def Obligations.MixOutIsExactClamp : Prop :=
  ∀ (ampFull a : Nat) (inner : Int), 0 < ampFull →
    (mixOut ampFull a inner : Int) =
      ⌊max 0 (min 255 ((inner : ℚ) / 255000 * ((a : ℚ) / ampFull) * (255 / 2) + 255 / 2))⌋

/-- 43_synthesizer_tick.md R153: `fundamental + sum of harmonic_value * strength = inner / 255000` exactly. -/
def Obligations.MixInnerIsScaledSum : Prop :=
  ∀ (n : Nat) (bank : List Slot) (pidx t : Nat),
    (mixInner n bank pidx t : ℚ) / 255000 =
      ((t : ℚ) - 255 / 2) / (255 / 2) +
      ((bank.filter Slot.active).map fun sl =>
        (sl.str : ℚ) / 1000 *
          (((wsample n ((sl.order * pidx + sl.htk) % n : Nat) : ℚ) - 255 / 2) / (255 / 2))).sum

/-- 43_synthesizer_tick.md R158. -/
def Obligations.AccumulatorCycleLength : Prop :=
  ∀ (n step acc k : Nat), acc < n →
    ((advance n step)^[k] acc = acc ↔ n / Nat.gcd n step ∣ k)

/-- 44_sync_controller.md R175 with R172 and 43_synthesizer_tick.md R156: the closed form of a run of ticks. -/
def Obligations.TickTimelineFromLowLevel : Prop :=
  ∀ (s : State) (k : Nat), s.level = false → s.elapsed = 0 → 1 ≤ periodOf s.cfg s.chA.freq →
    (∀ c : Chan, (s.chan c).acc < s.cfg.n ∧ (s.chan c).off < s.cfg.n) →
    ∃ t : State, execTicks k s = .next t ∧
      t.level = decide (k / periodOf s.cfg s.chA.freq % 2 = 1) ∧
      t.elapsed = k % periodOf s.cfg s.chA.freq ∧
      ∀ c : Chan, (t.chan c).acc =
        if k < periodOf s.cfg s.chA.freq then ((s.chan c).acc + k * (s.chan c).step) % s.cfg.n
        else
          ((s.chan c).off +
            (if k / periodOf s.cfg s.chA.freq % 2 = 1 then k % periodOf s.cfg s.chA.freq
              else periodOf s.cfg s.chA.freq + k % periodOf s.cfg s.chA.freq) * (s.chan c).step) % s.cfg.n

/-- 70_reset_and_hazards.md R246: the timer runs from the last edge. -/
def Obligations.EdgeHoldsSyncTimer : Prop :=
  ∀ (s : State) (k : Nat), 1 ≤ periodOf s.cfg s.chA.freq → k ≤ periodOf s.cfg s.chA.freq →
    (∀ c : Chan, (s.chan c).off < s.cfg.n) →
    ∃ t : State, execAll (.edge :: List.replicate k .tick) s = .next t ∧
      t.level = decide (k < periodOf s.cfg s.chA.freq) ∧
      t.elapsed = (if k < periodOf s.cfg s.chA.freq then k else 0) ∧
      ∀ c : Chan, (t.chan c).acc = ((s.chan c).off + k * (s.chan c).step) % s.cfg.n

/-- 44_sync_controller.md R177: a loop-back of the sync output to the sync input. -/
def Obligations.EdgeAfterRisingToggleChangesNothing : Prop :=
  ∀ s t : State, s.level = false → exec .tick s = .next t → t.level = true → exec .edge t = .next t

/-- 44_sync_controller.md R171: "`FREQ[B]` never affects the sync step". -/
def Obligations.ChannelBNeverAffectsSync : Prop :=
  ∀ (s : State) (ch : Channel), ∃ t u : State,
    exec .tick s = .next t ∧ exec .tick { s with chB := ch } = .next u ∧
    t.level = u.level ∧ t.elapsed = u.elapsed

/-- 10_state.md R49, point 5. -/
def Obligations.ElapsedBelowPeriodAfterTickAndEdge : Prop :=
  ∀ (s : State) (i : Instr), i = .tick ∨ i = .edge →
    ∃ t : State, exec i s = .next t ∧ t.elapsed < max 1 (periodOf t.cfg t.chA.freq)

/-- 10_state.md R36 and R49 (points 1, 2, 4), over whole clock cycles. The bound on ELAPSED is the one every event keeps
(entry 15). -/
def Obligations.StepKeepsInvariant : Prop :=
  ∀ s t : State, s.Inv → step s = .next t → t.Inv

/-- 70_reset_and_hazards.md R234: "Every invariant of rule R49 holds from reset on". -/
def Obligations.ResetSatisfiesInvariant : Prop :=
  (∀ (cfg : Config) (ins : List PortsIn), cfg.wellFormed = true → (State.resetOf cfg ins).Inv) ∧
  State.reset.Inv

/-- 00_scope.md R3: the model's unbounded integers keep the register widths. For STEP (10_state.md R24) this is said where
`step_of(MAX_FREQ)` itself fits 32 bits; elsewhere the model keeps the exact value (entry 5, DESIGN CHOICE). -/
def Obligations.RegistersFitTheirWidths : Prop :=
  ∀ s : State, s.Inv →
    s.elapsed < 2 ^ 32 ∧
    ∀ c : Chan,
      (s.chan c).freq < 2 ^ 32 ∧ (s.chan c).ampTgt < 2 ^ 32 ∧ (s.chan c).ampCur < 2 ^ 32 ∧
      (-2 ^ 31 ≤ (s.chan c).phase ∧ (s.chan c).phase < 2 ^ 31) ∧
      (s.chan c).acc < 2 ^ Nat.clog 2 s.cfg.n ∧ (s.chan c).off < 2 ^ Nat.clog 2 s.cfg.n ∧
      (stepOf s.cfg s.cfg.maxFreq < 2 ^ 32 → (s.chan c).step < 2 ^ 32) ∧
      (s.cfg.maxFreq * s.cfg.tsUs ≤ 10 ^ 9 → (s.chan c).step ≤ s.cfg.n) ∧
      ∀ sl ∈ (s.chan c).bank, sl.order < 2 ^ 32 ∧ sl.str < 2 ^ 32 ∧
        (-2 ^ 31 ≤ sl.hph ∧ sl.hph < 2 ^ 31) ∧ sl.htk < 2 ^ Nat.clog 2 s.cfg.n

/-- 10_state.md R47: the configuration is no state; R31: a bank has SLOTS slots. The fields `cfg` and `inputs` are the
model's own (entries 1 and 2, DESIGN CHOICE). -/
def Obligations.StepKeepsConfiguration : Prop :=
  ∀ s t : State, step s = .next t →
    t.cfg = s.cfg ∧ t.inputs = s.inputs.tail ∧
    ((nextPorts s).rst = false → ∀ c : Chan, (t.chan c).bank.length = (s.chan c).bank.length) ∧
    (s.Inv → ∀ c : Chan, (t.chan c).bank.length = (s.chan c).bank.length ∧ (t.chan c).bank.length = t.cfg.slots)

/-- 10_state.md R31: "The slots of one channel are never read or written by a command for the other channel" (written);
the same for its registers, by 42_channel_commands.md. -/
def Obligations.CommandsKeepOtherChannel : Prop :=
  ∀ (i : Instr) (c : Chan) (s t : State), i.chan? = some c → exec i s = .next t →
    t.chan c.other = s.chan c.other

/-- 10_state.md R28 to R30, R37, R38, R41: what no command writes. -/
def Obligations.CommandsKeepRuntimeState : Prop :=
  ∀ (i : Instr) (s t : State), i.isCommand = true → exec i s = .next t →
    (∀ c : Chan, (t.chan c).acc = (s.chan c).acc ∧ (t.chan c).ampCur = (s.chan c).ampCur ∧
      (t.chan c).out = (s.chan c).out) ∧
    t.level = s.level ∧ t.elapsed = s.elapsed ∧ t.edgePrev = s.edgePrev ∧ t.dacStb = s.dacStb ∧
    t.busRdata = s.busRdata ∧ t.arg0 = s.arg0 ∧ t.arg1 = s.arg1 ∧ t.arg2 = s.arg2

/-- 10_state.md R44: "No other command and no other event writes them". -/
def Obligations.OnlyReadCommandsWriteResults : Prop :=
  ∀ s t : State, step s = .next t → (nextPorts s).rst = false →
    (t.res0 = s.res0 ∧ t.res1 = s.res1 ∧ t.res2 = s.res2 ∧ t.res3 = s.res3) ∨
    ((nextPorts s).busWe = true ∧ hostReg (nextPorts s).busAddr = .cmd ∧
      ∃ i, decode (nextPorts s).busWdata = .ok i ∧ isReadCommand i = true)

/-- 41_harmonic_bank.md R113: "a claim never takes `count_active()` above `HCAP`". -/
def Obligations.ClaimKeepsBudget : Prop :=
  ∀ (s t : State) (c : Chan), (∀ x ∈ (s.chan c).bank, (x.order : Int) ≠ s.arg0.toInt) →
    exec (.wrHarm c) s = .next t → t.result = .ok →
    t.countActive ≤ t.cfg.hcap ∧
    t.countActive = s.countActive + (if 0 < s.arg1.toInt then 1 else 0)

/-- 41_harmonic_bank.md R117: the overrun by re-activation. -/
def Obligations.ReactivationIgnoresBudget : Prop :=
  ∀ (s : State) (c : Chan) (pre post : List Slot) (sl : Slot),
    3 ≤ s.arg0.toInt → s.arg0.toInt % 2 = 1 → 0 < s.arg1.toInt → s.arg1.toInt ≤ 1000 →
    (s.chan c).bank = pre ++ sl :: post → (∀ x ∈ pre, (x.order : Int) ≠ s.arg0.toInt) →
    (sl.order : Int) = s.arg0.toInt → sl.str = 0 →
    ∃ t : State, exec (.wrHarm c) s = .next t ∧ t.result = .ok ∧ t.countActive = s.countActive + 1

/-- 10_state.md R36, last sentence; 41_harmonic_bank.md R117. -/
def Obligations.ActiveCountBound : Prop :=
  ∀ s : State, s.Inv →
    (∀ c : Chan, activeCount (s.chan c).bank ≤ s.cfg.slots) ∧ s.countActive ≤ 2 * s.cfg.slots

/-- 40_waveform_table.md R100: the bounds of an entry (entry 4) are sound. -/
def Obligations.RomBracketsRoundedSine : Prop :=
  ∀ n i : Nat, n % 4 = 0 → 4 ≤ n → n ≤ 2 ^ 31 → i < n / 4 →
    (romLo n i : Int) ≤ ⌊(255 / 2 : ℝ) * Real.sin (i * (Real.pi / 2) / ((n / 4 : Nat) : ℝ)) + 128⌋ ∧
    ⌊(255 / 2 : ℝ) * Real.sin (i * (Real.pi / 2) / ((n / 4 : Nat) : ℝ)) + 128⌋ ≤ (romHi n i : Int)

/-- 40_waveform_table.md R100, both of its forms (a positive value's rounding is the floor of it plus one half), for every
legal table size; 20_memory.md R67: the constant that a ROM read returns. -/
def Obligations.RomIsRoundedSine : Prop :=
  ∀ n i : Nat, n % 4 = 0 → 4 ≤ n → n ≤ 2 ^ 31 → i < n / 4 →
    (rom n i : Int) = ⌊(255 / 2 : ℝ) * Real.sin (i * (Real.pi / 2) / ((n / 4 : Nat) : ℝ)) + 128⌋ ∧
    (rom n i : Int) = ⌊(255 / 2 : ℝ) * Real.sin (i * (Real.pi / 2) / ((n / 4 : Nat) : ℝ)) + 255 / 2 + 1 / 2⌋

/-- 40_waveform_table.md R101 (range and shape) and R100 (the corner case `ROM(0) = 128`). -/
def Obligations.RomRangeAndShape : Prop :=
  ∀ n i : Nat, n % 4 = 0 → 4 ≤ n → n ≤ 2 ^ 31 → i < n / 4 →
    (128 ≤ rom n i ∧ rom n i ≤ 255) ∧ (∀ j : Nat, i ≤ j → j < n / 4 → rom n i ≤ rom n j) ∧ rom n 0 = 128

/-- 40_waveform_table.md R105. -/
def Obligations.WsampleHalfCycleAntisymmetry : Prop :=
  ∀ (n : Nat) (idx : Int), n % 4 = 0 → 4 ≤ n → n ≤ 2 ^ 31 →
    (wsample n (idx + (n / 2 : Nat)) : Int) = 255 - (wsample n idx : Int)

/-- 40_waveform_table.md R104 at the reference configuration: the source's property of §8. The rounded value is never
negative, so its `rha` is the floor of the value plus one half. -/
def Obligations.ReferenceReconstructionWithinOneCount : Prop :=
  ∀ idx : Nat, idx < 1024 →
    |(wsample 1024 idx : Int) - ⌊(255 / 2 : ℝ) * Real.sin (2 * Real.pi * idx / 1024) + 255 / 2 + 1 / 2⌋| ≤ 1

/-- 00_scope.md R7. -/
def Obligations.RhaRoundsHalvesAwayFromZero : Prop :=
  ∀ (a : Int) (d : Nat), 0 < d →
    rha a d = (if (0 : ℚ) ≤ (a : ℚ) / d then ⌊(a : ℚ) / d + 1 / 2⌋ else -⌊-((a : ℚ) / d) + 1 / 2⌋) ∧
    (0 ≤ a → rha a d = (2 * a + d) / (2 * d))

/-- 00_scope.md R11: the helper functions against the rationals they round. -/
def Obligations.HelpersRoundExactRationals : Prop :=
  ∀ (cfg : Config), 0 < cfg.n → 0 < cfg.tsUs →
    (∀ f : Nat, (stepOf cfg f : Int) = rhaQ ((cfg.n : ℚ) * f * cfg.tsUs / 10 ^ 9)) ∧
    (∀ f : Nat, 1 ≤ f → (periodOf cfg f : Int) = rhaQ (10 ^ 9 / (2 * (f : ℚ) * cfg.tsUs))) ∧
    (∀ p : Int, (ticksOf cfg p : Int) = rhaQ ((p : ℚ) * cfg.n / 3600) % cfg.n)

/-- 30_encoding.md R88, with the sync input as entry 22 chooses it. `busRdata := none` where no read was made is the model's
choice (entry 3, DESIGN CHOICE). -/
def Obligations.AssemblyLinesRunTheirCommands : Prop :=
  ∀ (s : State) (line : AsmLine) (rest : List PortsIn),
    s.cfg.wellFormed = true → s.inputs = line.expand ++ rest →
    (∀ i : Instr, line.command? = some i →
      runSteps line.expand.length s =
        exec i (line.setArgs { s with inputs := rest, edgePrev := false, dacStb := false, busRdata := none })) ∧
    (∀ (off : BitVec 6) (v : Word), off.toNat % 4 = 0 → line = .memWrite off v →
      runSteps 1 s = hostWrite (hostReg off) v
        { s with inputs := rest, edgePrev := false, dacStb := false, busRdata := none }) ∧
    (∀ off : BitVec 6, off.toNat % 4 = 0 → line = .ldr off →
      runSteps 1 s = .next { s with
        inputs := rest, edgePrev := false, dacStb := false, busRdata := some (readReg s (hostReg off)) }) ∧
    (∀ k : Nat, 1 ≤ k → line = .tick k →
      runSteps k s = execTicks k { s with inputs := rest, edgePrev := false, dacStb := false, busRdata := none }) ∧
    (line = .edge →
      runSteps 2 s = exec .edge { s with inputs := rest, edgePrev := true, dacStb := false, busRdata := none })

/-- 95_test_vectors.md S6: the command round trips. -/
def Obligations.ParameterRoundTrips : Prop :=
  ∀ (s : State) (c : Chan),
    (∀ f : Nat, s.cfg.minFreq ≤ f → f ≤ s.cfg.maxFreq → f < 2 ^ 31 →
      ∃ t : State, execAll [.wrFreq c, .rdFreq c] { s with arg0 := u32 f } = .next t ∧
        t.result = .ok ∧ t.res0 = u32 f ∧ t.res1 = u32 (stepOf s.cfg f)) ∧
    (∀ p : Int, -3600 ≤ p → p ≤ 3600 →
      ∃ t : State, execAll [.wrPhase c, .rdPhase c] { s with arg0 := u32 p } = .next t ∧
        t.result = .ok ∧ sext32 t.res0 = p ∧ t.res1 = u32 (ticksOf s.cfg p)) ∧
    (∀ a k : Nat, a ≤ 1000 →
      |((a * (s.cfg.ampFull / 1000) : Nat) : Int) - (s.chan c).ampCur| ≤ (k * s.cfg.rampStep : Nat) →
      ∃ t : State,
        execAll (.wrAmp c :: (List.replicate k .tick ++ [.rdAmp c])) { s with arg0 := u32 a } = .next t ∧
        t.result = .ok ∧ t.res0 = u32 (a * (s.cfg.ampFull / 1000) : Nat) ∧ t.res1 = t.res0)

/-- 10_state.md R50: ACC, ELAPSED, HTK, EDGE_PREV and inactive slots are not observable. -/
def Obligations.HostViewDeterminesReads : Prop :=
  ∀ s t : State, s.view = t.view →
    (∀ r : HostReg, readReg s r = readReg t r) ∧
    ∀ i : Instr, isReadCommand i = true →
      ∃ s' t' : State, exec i s = .next s' ∧ exec i t = .next t' ∧ s'.view = t'.view
end

