-- ==== Sys2Proof/Laws/State.lean ====
section
/-! SUPPORT. One lemma per field and per update of State, and of Channel, so that no proof unfolds a record update. -/

namespace Sys2Proof.Machine

/-! `setResult` -/

@[simp] theorem setResult_cfg (s : State) (code : Code) : (s.setResult code).cfg = s.cfg := rfl
@[simp] theorem setResult_chA (s : State) (code : Code) : (s.setResult code).chA = s.chA := rfl
@[simp] theorem setResult_chB (s : State) (code : Code) : (s.setResult code).chB = s.chB := rfl
@[simp] theorem setResult_level (s : State) (code : Code) : (s.setResult code).level = s.level := rfl
@[simp] theorem setResult_elapsed (s : State) (code : Code) : (s.setResult code).elapsed = s.elapsed := rfl
@[simp] theorem setResult_edgePrev (s : State) (code : Code) : (s.setResult code).edgePrev = s.edgePrev := rfl
@[simp] theorem setResult_arg0 (s : State) (code : Code) : (s.setResult code).arg0 = s.arg0 := rfl
@[simp] theorem setResult_arg1 (s : State) (code : Code) : (s.setResult code).arg1 = s.arg1 := rfl
@[simp] theorem setResult_arg2 (s : State) (code : Code) : (s.setResult code).arg2 = s.arg2 := rfl
@[simp] theorem setResult_result (s : State) (code : Code) : (s.setResult code).result = code := rfl
@[simp] theorem setResult_res0 (s : State) (code : Code) : (s.setResult code).res0 = s.res0 := rfl
@[simp] theorem setResult_res1 (s : State) (code : Code) : (s.setResult code).res1 = s.res1 := rfl
@[simp] theorem setResult_res2 (s : State) (code : Code) : (s.setResult code).res2 = s.res2 := rfl
@[simp] theorem setResult_res3 (s : State) (code : Code) : (s.setResult code).res3 = s.res3 := rfl
@[simp] theorem setResult_dacStb (s : State) (code : Code) : (s.setResult code).dacStb = s.dacStb := rfl
@[simp] theorem setResult_busRdata (s : State) (code : Code) : (s.setResult code).busRdata = s.busRdata := rfl
@[simp] theorem setResult_inputs (s : State) (code : Code) : (s.setResult code).inputs = s.inputs := rfl
@[simp] theorem setResult_chan (s : State) (code : Code) (c : Chan) : (s.setResult code).chan c = s.chan c := by cases c <;> rfl

/-! `writeRes` -/

@[simp] theorem writeRes_cfg (s : State) (r0 r1 r2 r3 : Word) : (s.writeRes r0 r1 r2 r3).cfg = s.cfg := rfl
@[simp] theorem writeRes_chA (s : State) (r0 r1 r2 r3 : Word) : (s.writeRes r0 r1 r2 r3).chA = s.chA := rfl
@[simp] theorem writeRes_chB (s : State) (r0 r1 r2 r3 : Word) : (s.writeRes r0 r1 r2 r3).chB = s.chB := rfl
@[simp] theorem writeRes_level (s : State) (r0 r1 r2 r3 : Word) : (s.writeRes r0 r1 r2 r3).level = s.level := rfl
@[simp] theorem writeRes_elapsed (s : State) (r0 r1 r2 r3 : Word) : (s.writeRes r0 r1 r2 r3).elapsed = s.elapsed := rfl
@[simp] theorem writeRes_edgePrev (s : State) (r0 r1 r2 r3 : Word) : (s.writeRes r0 r1 r2 r3).edgePrev = s.edgePrev := rfl
@[simp] theorem writeRes_arg0 (s : State) (r0 r1 r2 r3 : Word) : (s.writeRes r0 r1 r2 r3).arg0 = s.arg0 := rfl
@[simp] theorem writeRes_arg1 (s : State) (r0 r1 r2 r3 : Word) : (s.writeRes r0 r1 r2 r3).arg1 = s.arg1 := rfl
@[simp] theorem writeRes_arg2 (s : State) (r0 r1 r2 r3 : Word) : (s.writeRes r0 r1 r2 r3).arg2 = s.arg2 := rfl
@[simp] theorem writeRes_result (s : State) (r0 r1 r2 r3 : Word) : (s.writeRes r0 r1 r2 r3).result = s.result := rfl
@[simp] theorem writeRes_res0 (s : State) (r0 r1 r2 r3 : Word) : (s.writeRes r0 r1 r2 r3).res0 = r0 := rfl
@[simp] theorem writeRes_res1 (s : State) (r0 r1 r2 r3 : Word) : (s.writeRes r0 r1 r2 r3).res1 = r1 := rfl
@[simp] theorem writeRes_res2 (s : State) (r0 r1 r2 r3 : Word) : (s.writeRes r0 r1 r2 r3).res2 = r2 := rfl
@[simp] theorem writeRes_res3 (s : State) (r0 r1 r2 r3 : Word) : (s.writeRes r0 r1 r2 r3).res3 = r3 := rfl
@[simp] theorem writeRes_dacStb (s : State) (r0 r1 r2 r3 : Word) : (s.writeRes r0 r1 r2 r3).dacStb = s.dacStb := rfl
@[simp] theorem writeRes_busRdata (s : State) (r0 r1 r2 r3 : Word) : (s.writeRes r0 r1 r2 r3).busRdata = s.busRdata := rfl
@[simp] theorem writeRes_inputs (s : State) (r0 r1 r2 r3 : Word) : (s.writeRes r0 r1 r2 r3).inputs = s.inputs := rfl
@[simp] theorem writeRes_chan (s : State) (r0 r1 r2 r3 : Word) (c : Chan) : (s.writeRes r0 r1 r2 r3).chan c = s.chan c := by
  cases c <;> rfl

/-! `setChan` and `setBank` -/

@[simp] theorem setChan_cfg (s : State) (c : Chan) (ch : Channel) : (s.setChan c ch).cfg = s.cfg := by cases c <;> rfl
@[simp] theorem setBank_cfg (s : State) (c : Chan) (bank : List Slot) : (s.setBank c bank).cfg = s.cfg := by cases c <;> rfl
@[simp] theorem setChan_level (s : State) (c : Chan) (ch : Channel) : (s.setChan c ch).level = s.level := by cases c <;> rfl
@[simp] theorem setBank_level (s : State) (c : Chan) (bank : List Slot) : (s.setBank c bank).level = s.level := by cases c <;> rfl
@[simp] theorem setChan_elapsed (s : State) (c : Chan) (ch : Channel) : (s.setChan c ch).elapsed = s.elapsed := by cases c <;> rfl
@[simp] theorem setBank_elapsed (s : State) (c : Chan) (bank : List Slot) : (s.setBank c bank).elapsed = s.elapsed := by cases c <;> rfl
@[simp] theorem setChan_edgePrev (s : State) (c : Chan) (ch : Channel) : (s.setChan c ch).edgePrev = s.edgePrev := by cases c <;> rfl
@[simp] theorem setBank_edgePrev (s : State) (c : Chan) (bank : List Slot) : (s.setBank c bank).edgePrev = s.edgePrev := by cases c <;> rfl
@[simp] theorem setChan_arg0 (s : State) (c : Chan) (ch : Channel) : (s.setChan c ch).arg0 = s.arg0 := by cases c <;> rfl
@[simp] theorem setBank_arg0 (s : State) (c : Chan) (bank : List Slot) : (s.setBank c bank).arg0 = s.arg0 := by cases c <;> rfl
@[simp] theorem setChan_arg1 (s : State) (c : Chan) (ch : Channel) : (s.setChan c ch).arg1 = s.arg1 := by cases c <;> rfl
@[simp] theorem setBank_arg1 (s : State) (c : Chan) (bank : List Slot) : (s.setBank c bank).arg1 = s.arg1 := by cases c <;> rfl
@[simp] theorem setChan_arg2 (s : State) (c : Chan) (ch : Channel) : (s.setChan c ch).arg2 = s.arg2 := by cases c <;> rfl
@[simp] theorem setBank_arg2 (s : State) (c : Chan) (bank : List Slot) : (s.setBank c bank).arg2 = s.arg2 := by cases c <;> rfl
@[simp] theorem setChan_result (s : State) (c : Chan) (ch : Channel) : (s.setChan c ch).result = s.result := by cases c <;> rfl
@[simp] theorem setBank_result (s : State) (c : Chan) (bank : List Slot) : (s.setBank c bank).result = s.result := by cases c <;> rfl
@[simp] theorem setChan_res0 (s : State) (c : Chan) (ch : Channel) : (s.setChan c ch).res0 = s.res0 := by cases c <;> rfl
@[simp] theorem setBank_res0 (s : State) (c : Chan) (bank : List Slot) : (s.setBank c bank).res0 = s.res0 := by cases c <;> rfl
@[simp] theorem setChan_res1 (s : State) (c : Chan) (ch : Channel) : (s.setChan c ch).res1 = s.res1 := by cases c <;> rfl
@[simp] theorem setBank_res1 (s : State) (c : Chan) (bank : List Slot) : (s.setBank c bank).res1 = s.res1 := by cases c <;> rfl
@[simp] theorem setChan_res2 (s : State) (c : Chan) (ch : Channel) : (s.setChan c ch).res2 = s.res2 := by cases c <;> rfl
@[simp] theorem setBank_res2 (s : State) (c : Chan) (bank : List Slot) : (s.setBank c bank).res2 = s.res2 := by cases c <;> rfl
@[simp] theorem setChan_res3 (s : State) (c : Chan) (ch : Channel) : (s.setChan c ch).res3 = s.res3 := by cases c <;> rfl
@[simp] theorem setBank_res3 (s : State) (c : Chan) (bank : List Slot) : (s.setBank c bank).res3 = s.res3 := by cases c <;> rfl
@[simp] theorem setChan_dacStb (s : State) (c : Chan) (ch : Channel) : (s.setChan c ch).dacStb = s.dacStb := by cases c <;> rfl
@[simp] theorem setBank_dacStb (s : State) (c : Chan) (bank : List Slot) : (s.setBank c bank).dacStb = s.dacStb := by cases c <;> rfl
@[simp] theorem setChan_busRdata (s : State) (c : Chan) (ch : Channel) : (s.setChan c ch).busRdata = s.busRdata := by cases c <;> rfl
@[simp] theorem setBank_busRdata (s : State) (c : Chan) (bank : List Slot) : (s.setBank c bank).busRdata = s.busRdata := by cases c <;> rfl
@[simp] theorem setChan_inputs (s : State) (c : Chan) (ch : Channel) : (s.setChan c ch).inputs = s.inputs := by cases c <;> rfl
@[simp] theorem setBank_inputs (s : State) (c : Chan) (bank : List Slot) : (s.setBank c bank).inputs = s.inputs := by cases c <;> rfl
@[simp] theorem chan_A (s : State) : s.chan .A = s.chA := rfl
@[simp] theorem chan_B (s : State) : s.chan .B = s.chB := rfl
@[simp] theorem setChan_A_chA (s : State) (ch : Channel) : (s.setChan .A ch).chA = ch := rfl
@[simp] theorem setChan_A_chB (s : State) (ch : Channel) : (s.setChan .A ch).chB = s.chB := rfl
@[simp] theorem setChan_B_chA (s : State) (ch : Channel) : (s.setChan .B ch).chA = s.chA := rfl
@[simp] theorem setChan_B_chB (s : State) (ch : Channel) : (s.setChan .B ch).chB = ch := rfl
@[simp] theorem setChan_chan (s : State) (c : Chan) (ch : Channel) : (s.setChan c ch).chan c = ch := by cases c <;> rfl
@[simp] theorem setChan_chan_other (s : State) (c : Chan) (ch : Channel) :
    (s.setChan c ch).chan c.other = s.chan c.other := by cases c <;> rfl
@[simp] theorem setBank_chan (s : State) (c : Chan) (bank : List Slot) :
    (s.setBank c bank).chan c = { s.chan c with bank := bank } := by cases c <;> rfl
@[simp] theorem setBank_chan_other (s : State) (c : Chan) (bank : List Slot) :
    (s.setBank c bank).chan c.other = s.chan c.other := by cases c <;> rfl
@[simp] theorem other_A : Chan.A.other = .B := rfl
@[simp] theorem other_B : Chan.B.other = .A := rfl

/-! `resync` -/

@[simp] theorem resync_cfg (s : State) : s.resync.cfg = s.cfg := rfl
@[simp] theorem resync_chA (s : State) : s.resync.chA = s.chA.resync := rfl
@[simp] theorem resync_chB (s : State) : s.resync.chB = s.chB.resync := rfl
@[simp] theorem resync_level (s : State) : s.resync.level = s.level := rfl
@[simp] theorem resync_elapsed (s : State) : s.resync.elapsed = s.elapsed := rfl
@[simp] theorem resync_edgePrev (s : State) : s.resync.edgePrev = s.edgePrev := rfl
@[simp] theorem resync_arg0 (s : State) : s.resync.arg0 = s.arg0 := rfl
@[simp] theorem resync_arg1 (s : State) : s.resync.arg1 = s.arg1 := rfl
@[simp] theorem resync_arg2 (s : State) : s.resync.arg2 = s.arg2 := rfl
@[simp] theorem resync_result (s : State) : s.resync.result = s.result := rfl
@[simp] theorem resync_res0 (s : State) : s.resync.res0 = s.res0 := rfl
@[simp] theorem resync_res1 (s : State) : s.resync.res1 = s.res1 := rfl
@[simp] theorem resync_res2 (s : State) : s.resync.res2 = s.res2 := rfl
@[simp] theorem resync_res3 (s : State) : s.resync.res3 = s.res3 := rfl
@[simp] theorem resync_dacStb (s : State) : s.resync.dacStb = s.dacStb := rfl
@[simp] theorem resync_busRdata (s : State) : s.resync.busRdata = s.busRdata := rfl
@[simp] theorem resync_inputs (s : State) : s.resync.inputs = s.inputs := rfl
@[simp] theorem channel_resync_freq (ch : Channel) : ch.resync.freq = ch.freq := rfl
@[simp] theorem channel_resync_step (ch : Channel) : ch.resync.step = ch.step := rfl
@[simp] theorem channel_resync_phase (ch : Channel) : ch.resync.phase = ch.phase := rfl
@[simp] theorem channel_resync_off (ch : Channel) : ch.resync.off = ch.off := rfl
@[simp] theorem channel_resync_ampTgt (ch : Channel) : ch.resync.ampTgt = ch.ampTgt := rfl
@[simp] theorem channel_resync_ampCur (ch : Channel) : ch.resync.ampCur = ch.ampCur := rfl
@[simp] theorem channel_resync_acc (ch : Channel) : ch.resync.acc = ch.off := rfl
@[simp] theorem channel_resync_out (ch : Channel) : ch.resync.out = ch.out := rfl
@[simp] theorem channel_resync_bank (ch : Channel) : ch.resync.bank = ch.bank := rfl
@[simp] theorem resync_chan (s : State) (c : Chan) : s.resync.chan c = (s.chan c).resync := by cases c <;> rfl

/-! `openCycle` and `hostRead` -/

@[simp] theorem openCycle_cfg (p : PortsIn) (s : State) : (openCycle p s).cfg = s.cfg := rfl
@[simp] theorem openCycle_chA (p : PortsIn) (s : State) : (openCycle p s).chA = s.chA := rfl
@[simp] theorem openCycle_chB (p : PortsIn) (s : State) : (openCycle p s).chB = s.chB := rfl
@[simp] theorem openCycle_level (p : PortsIn) (s : State) : (openCycle p s).level = s.level := rfl
@[simp] theorem openCycle_elapsed (p : PortsIn) (s : State) : (openCycle p s).elapsed = s.elapsed := rfl
@[simp] theorem openCycle_edgePrev (p : PortsIn) (s : State) : (openCycle p s).edgePrev = p.syncIn := rfl
@[simp] theorem openCycle_arg0 (p : PortsIn) (s : State) : (openCycle p s).arg0 = s.arg0 := rfl
@[simp] theorem openCycle_arg1 (p : PortsIn) (s : State) : (openCycle p s).arg1 = s.arg1 := rfl
@[simp] theorem openCycle_arg2 (p : PortsIn) (s : State) : (openCycle p s).arg2 = s.arg2 := rfl
@[simp] theorem openCycle_result (p : PortsIn) (s : State) : (openCycle p s).result = s.result := rfl
@[simp] theorem openCycle_res0 (p : PortsIn) (s : State) : (openCycle p s).res0 = s.res0 := rfl
@[simp] theorem openCycle_res1 (p : PortsIn) (s : State) : (openCycle p s).res1 = s.res1 := rfl
@[simp] theorem openCycle_res2 (p : PortsIn) (s : State) : (openCycle p s).res2 = s.res2 := rfl
@[simp] theorem openCycle_res3 (p : PortsIn) (s : State) : (openCycle p s).res3 = s.res3 := rfl
@[simp] theorem openCycle_dacStb (p : PortsIn) (s : State) : (openCycle p s).dacStb = false := rfl
@[simp] theorem openCycle_busRdata (p : PortsIn) (s : State) : (openCycle p s).busRdata = none := rfl
@[simp] theorem openCycle_inputs (p : PortsIn) (s : State) : (openCycle p s).inputs = s.inputs := rfl
@[simp] theorem hostRead_cfg (r : HostReg) (s : State) : (hostRead r s).cfg = s.cfg := rfl
@[simp] theorem hostRead_chA (r : HostReg) (s : State) : (hostRead r s).chA = s.chA := rfl
@[simp] theorem hostRead_chB (r : HostReg) (s : State) : (hostRead r s).chB = s.chB := rfl
@[simp] theorem hostRead_level (r : HostReg) (s : State) : (hostRead r s).level = s.level := rfl
@[simp] theorem hostRead_elapsed (r : HostReg) (s : State) : (hostRead r s).elapsed = s.elapsed := rfl
@[simp] theorem hostRead_edgePrev (r : HostReg) (s : State) : (hostRead r s).edgePrev = s.edgePrev := rfl
@[simp] theorem hostRead_arg0 (r : HostReg) (s : State) : (hostRead r s).arg0 = s.arg0 := rfl
@[simp] theorem hostRead_arg1 (r : HostReg) (s : State) : (hostRead r s).arg1 = s.arg1 := rfl
@[simp] theorem hostRead_arg2 (r : HostReg) (s : State) : (hostRead r s).arg2 = s.arg2 := rfl
@[simp] theorem hostRead_result (r : HostReg) (s : State) : (hostRead r s).result = s.result := rfl
@[simp] theorem hostRead_res0 (r : HostReg) (s : State) : (hostRead r s).res0 = s.res0 := rfl
@[simp] theorem hostRead_res1 (r : HostReg) (s : State) : (hostRead r s).res1 = s.res1 := rfl
@[simp] theorem hostRead_res2 (r : HostReg) (s : State) : (hostRead r s).res2 = s.res2 := rfl
@[simp] theorem hostRead_res3 (r : HostReg) (s : State) : (hostRead r s).res3 = s.res3 := rfl
@[simp] theorem hostRead_dacStb (r : HostReg) (s : State) : (hostRead r s).dacStb = s.dacStb := rfl
@[simp] theorem hostRead_busRdata (r : HostReg) (s : State) : (hostRead r s).busRdata = some (readReg s r) := rfl
@[simp] theorem hostRead_inputs (r : HostReg) (s : State) : (hostRead r s).inputs = s.inputs := rfl

/-! `tickChannel` -/

@[simp] theorem tickChannel_freq (cfg : Config) (ch : Channel) : (tickChannel cfg ch).freq = ch.freq := rfl
@[simp] theorem tickChannel_step (cfg : Config) (ch : Channel) : (tickChannel cfg ch).step = ch.step := rfl
@[simp] theorem tickChannel_phase (cfg : Config) (ch : Channel) : (tickChannel cfg ch).phase = ch.phase := rfl
@[simp] theorem tickChannel_off (cfg : Config) (ch : Channel) : (tickChannel cfg ch).off = ch.off := rfl
@[simp] theorem tickChannel_ampTgt (cfg : Config) (ch : Channel) : (tickChannel cfg ch).ampTgt = ch.ampTgt := rfl
@[simp] theorem tickChannel_bank (cfg : Config) (ch : Channel) : (tickChannel cfg ch).bank = ch.bank := rfl
@[simp] theorem tickChannel_ampCur (cfg : Config) (ch : Channel) : (tickChannel cfg ch).ampCur = rampTo cfg.rampStep ch.ampTgt ch.ampCur := rfl
@[simp] theorem tickChannel_acc (cfg : Config) (ch : Channel) : (tickChannel cfg ch).acc = advance cfg.n ch.step ch.acc := rfl

end Sys2Proof.Machine
end

