-- ==== Sys2Proof/Laws/Ops.lean ====
section
/-! SUPPORT. One lemma per shared operation that says what it can do; proofs cite these and unfold nothing. -/

namespace Sys2Proof.Machine

/-! Sequencing -/

@[simp] theorem chain_next (s : State) (f : State → Host.Outcome State Fault Refusal) :
    chain (.next s) f = f s := rfl

@[simp] theorem chain_refused (r : Refusal) (f : State → Host.Outcome State Fault Refusal) :
    chain (.refused r) f = .refused r := rfl

/-- A sequence answers a next state exactly when both halves do. -/
theorem chain_eq_next {o : Host.Outcome State Fault Refusal} {f : State → Host.Outcome State Fault Refusal}
    {t : State} : chain o f = .next t ↔ ∃ s, o = .next s ∧ f s = .next t := by
  cases o with
  | next s => simp [chain]
  | fault r => exact r.rec
  | refused r => simp [chain]

@[simp] theorem execAll_nil (s : State) : execAll [] s = .next s := rfl

@[simp] theorem execAll_cons (i : Instr) (is : List Instr) (s : State) :
    execAll (i :: is) s = chain (exec i s) (execAll is) := rfl

@[simp] theorem execTicks_zero (s : State) : execTicks 0 s = .next s := rfl

/-- One more tick at the front of a run of ticks. -/
theorem execTicks_succ (k : Nat) (s : State) :
    execTicks (k + 1) s = chain (exec .tick s) (execTicks k) := rfl

/-- A run of events in two parts. -/
theorem execAll_append (is js : List Instr) (s : State) :
    execAll (is ++ js) s = chain (execAll is s) (execAll js) := by
  induction is generalizing s with
  | nil => rfl
  | cons i is ih =>
    simp only [List.cons_append, execAll_cons]
    cases exec i s with
    | next t => exact ih t
    | fault r => rfl
    | refused r => rfl

/-- A run of clock cycles in two parts. -/
theorem runSteps_add (j k : Nat) (s : State) :
    runSteps (j + k) s = chain (runSteps j s) (runSteps k) := by
  induction j generalizing s with
  | zero => simp [runSteps]
  | succ j ih =>
    rw [Nat.succ_add]
    simp only [runSteps]
    cases step s with
    | next t => exact ih t
    | fault r => rfl
    | refused r => rfl

/-! Harmonic slots -/

/-- No member satisfies `p` exactly when nothing is replaced. -/
theorem setFirst_eq_none {p : Slot → Bool} {f : Slot → Slot} {l : List Slot} :
    setFirst p f l = none ↔ ∀ sl ∈ l, p sl = false := by
  induction l with
  | nil => simp [setFirst]
  | cons a l ih =>
    cases h : p a <;> simp [setFirst, h, ih]

/-- What a replacement is: the first member that satisfies `p`, and no other, is changed. -/
theorem setFirst_eq_some {p : Slot → Bool} {f : Slot → Slot} {l l' : List Slot} (h : setFirst p f l = some l') :
    ∃ pre sl post, l = pre ++ sl :: post ∧ l' = pre ++ f sl :: post ∧ p sl = true ∧ ∀ x ∈ pre, p x = false := by
  induction l generalizing l' with
  | nil => simp [setFirst] at h
  | cons a l ih =>
    cases ha : p a with
    | true =>
      simp only [setFirst, ha, if_true, Option.some.injEq] at h
      exact ⟨[], a, l, rfl, h.symm, ha, by simp⟩
    | false =>
      simp only [setFirst, ha, Bool.false_eq_true, if_false, Option.map_eq_some_iff] at h
      obtain ⟨r, hr, rfl⟩ := h
      obtain ⟨pre, sl, post, rfl, rfl, hp, hpre⟩ := ih hr
      exact ⟨a :: pre, sl, post, rfl, rfl, hp, by simpa [ha] using hpre⟩

/-- The replacement at a known first member. -/
theorem setFirst_append {p : Slot → Bool} {f : Slot → Slot} {pre post : List Slot} {sl : Slot}
    (hpre : ∀ x ∈ pre, p x = false) (hsl : p sl = true) :
    setFirst p f (pre ++ sl :: post) = some (pre ++ f sl :: post) := by
  induction pre with
  | nil => simp [setFirst, hsl]
  | cons a pre ih =>
    have ha : p a = false := hpre a (by simp)
    simp [setFirst, ha, ih fun x hx => hpre x (by simp [hx])]

/-- A replacement keeps the number of slots. -/
theorem setFirst_length {p : Slot → Bool} {f : Slot → Slot} {l l' : List Slot} (h : setFirst p f l = some l') :
    l'.length = l.length := by
  obtain ⟨pre, sl, post, rfl, rfl, -, -⟩ := setFirst_eq_some h
  simp

/-- An active slot is not empty, and an empty one not active. -/
theorem not_active_of_empty {sl : Slot} (h : sl.empty = true) : sl.active = false := by
  simp only [Slot.empty, Bool.or_eq_true, decide_eq_true_eq] at h
  simp only [Slot.active, Bool.and_eq_false_iff, decide_eq_false_iff_not]
  omega

/-- The count of a bank is the length of its list of active slots. -/
theorem activeCount_eq_length (bank : List Slot) : activeCount bank = (activeSlots bank).length :=
  List.countP_eq_length_filter

/-- The validation of R110 as a statement about the operands. -/
theorem harmOperandsOk_iff {k str : Int} :
    harmOperandsOk k str = true ↔ 3 ≤ k ∧ k % 2 = 1 ∧ 0 ≤ str ∧ str ≤ 1000 := by
  simp only [harmOperandsOk, Bool.not_eq_true', Bool.or_eq_false_iff, decide_eq_false_iff_not]
  omega

/-- What steps 2 and 3 of `WR_HARM` can do: update in place, claim under the budget, or reject for capacity. -/
theorem writeHarm_cases (c : Chan) (k str : Nat) (p : Int) (s : State) :
    (∃ bank, updateSlot s.cfg k str p (s.chan c).bank = some bank ∧
      writeHarm c k str p s = (s.setBank c bank).setResult .ok) ∨
    (updateSlot s.cfg k str p (s.chan c).bank = none ∧ s.countActive < s.cfg.hcap ∧
      ∃ bank, claimSlot s.cfg k str p (s.chan c).bank = some bank ∧
        writeHarm c k str p s = (s.setBank c bank).setResult .ok) ∨
    (updateSlot s.cfg k str p (s.chan c).bank = none ∧
      (s.cfg.hcap ≤ s.countActive ∨ claimSlot s.cfg k str p (s.chan c).bank = none) ∧
      writeHarm c k str p s = s.setResult .rejectCapacity) := by
  unfold writeHarm
  cases hu : updateSlot s.cfg k str p (s.chan c).bank with
  | some bank => exact .inl ⟨bank, rfl, rfl⟩
  | none =>
    by_cases hc : s.countActive ≥ s.cfg.hcap
    · exact .inr (.inr ⟨rfl, .inl hc, by simp [hc]⟩)
    · cases hk : claimSlot s.cfg k str p (s.chan c).bank with
      | some bank => exact .inr (.inl ⟨rfl, by omega, bank, rfl, by simp [hc]⟩)
      | none => exact .inr (.inr ⟨rfl, .inr rfl, by simp [hc]⟩)

/-! Arithmetic -/

/-- A clamped value is in the range. -/
theorem clamp_mem {x lo hi : Int} (h : lo ≤ hi) : lo ≤ clamp x lo hi ∧ clamp x lo hi ≤ hi := by
  unfold clamp
  split
  · omega
  · split <;> omega

/-- A value in the range is its own clamp. -/
theorem clamp_eq_self {x lo hi : Int} (h₁ : lo ≤ x) (h₂ : x ≤ hi) : clamp x lo hi = x := by
  unfold clamp
  rw [if_neg (by omega), if_neg (by omega)]

/-- A phase offset is a table index. -/
theorem ticksOf_lt {cfg : Config} (h : 0 < cfg.n) (p : Int) : ticksOf cfg p < cfg.n := by
  have h' : (0 : Int) < cfg.n := by exact_mod_cast h
  have h₁ := Int.emod_nonneg (rha (p * cfg.n) 3600) (ne_of_gt h')
  have h₂ := Int.emod_lt_of_pos (rha (p * cfg.n) 3600) h'
  unfold ticksOf
  omega

/-- The advanced accumulator is a table index. -/
theorem advance_lt {n : Nat} (h : 0 < n) (step acc : Nat) : advance n step acc < n := Nat.mod_lt _ h

/-- What the ramp of one tick does (R150): one step up, one step down, or the snap. -/
theorem rampTo_cases (r tgt cur : Nat) :
    (cur + r < tgt ∧ rampTo r tgt cur = cur + r) ∨
    (tgt + r < cur ∧ rampTo r tgt cur = cur - r) ∨
    (tgt ≤ cur + r ∧ cur ≤ tgt + r ∧ rampTo r tgt cur = tgt) := by
  unfold rampTo
  simp only
  split
  · left
    omega
  · split
    · right; left
      omega
    · right; right
      omega

/-- The mixer's output is a sample. -/
theorem mixOut_le (ampFull a : Nat) (inner : Int) : mixOut ampFull a inner ≤ 255 := by
  unfold mixOut
  simp only
  split
  · omega
  · split
    · omega
    · rename_i h₁ h₂
      have hd : (0 : Int) < 2 * ampFull * 1000 := by omega
      have := Int.ediv_lt_of_lt_mul hd (not_le.mp h₂)
      omega

/-! The sync controller -/

/-- What the sync step can do (R172): count on, toggle to low, or toggle to high with a resync. -/
theorem syncStep_cases (s : State) :
    (s.elapsed + 1 < periodOf s.cfg s.chA.freq ∧ syncStep s = { s with elapsed := s.elapsed + 1 }) ∨
    (periodOf s.cfg s.chA.freq ≤ s.elapsed + 1 ∧ s.level = true ∧
      syncStep s = { s with level := false, elapsed := 0 }) ∨
    (periodOf s.cfg s.chA.freq ≤ s.elapsed + 1 ∧ s.level = false ∧
      syncStep s = State.resync { s with level := true, elapsed := 0 }) := by
  unfold syncStep
  by_cases h : s.elapsed + 1 ≥ periodOf s.cfg s.chA.freq
  · cases hl : s.level with
    | true => exact .inr (.inl ⟨h, rfl, by simp [h]⟩)
    | false => exact .inr (.inr ⟨h, rfl, by simp [h]⟩)
  · exact .inl ⟨by omega, by simp [h]⟩

/-! The host port -/

/-- A defined access in terms of the offset as a number (R64). -/
theorem accessDefined_iff {p : PortsIn} :
    p.accessDefined = true ↔ p.busAddr.toNat % 4 = 0 ∧ p.busBe = 0b1111 := by
  simp only [PortsIn.accessDefined, Bool.and_eq_true, beq_iff_eq]
  refine and_congr_left fun _ => ⟨fun h => ?_, fun h => ?_⟩
  · have := congrArg BitVec.toNat h
    simp at this
    omega
  · apply BitVec.eq_of_toNat_eq
    simp
    omega

/-- What a host access that answers a next state has done: nothing, one write, or one read. -/
theorem hostAccess_next {p : PortsIn} {s t : State} (h : hostAccess p s = .next t) :
    (p.busWe = false ∧ p.busRe = false ∧ t = s) ∨
    (p.busWe = true ∧ p.busRe = false ∧ p.accessDefined = true ∧
      hostWrite (hostReg p.busAddr) p.busWdata s = .next t) ∨
    (p.busWe = false ∧ p.busRe = true ∧ p.accessDefined = true ∧ t = hostRead (hostReg p.busAddr) s) := by
  unfold hostAccess at h
  cases hw : p.busWe <;> cases hr : p.busRe <;> simp only [hw, hr] at h
  · exact .inl ⟨rfl, rfl, by simpa using h.symm⟩
  · split at h
    · rename_i ha
      exact .inr (.inr ⟨rfl, rfl, ha, by simpa using h.symm⟩)
    · simp at h
  · split at h
    · rename_i ha
      exact .inr (.inl ⟨rfl, rfl, ha, h⟩)
    · simp at h
  · simp at h

/-- What a host write can do: store an operand, run a command, mark an illegal word, or nothing. -/
theorem hostWrite_next {r : HostReg} {v : Word} {s t : State} (h : hostWrite r v s = .next t) :
    t = { s with arg0 := v } ∨ t = { s with arg1 := v } ∨ t = { s with arg2 := v } ∨
    (r = .cmd ∧ ∃ i, decode v = .ok i ∧ exec i s = .next t) ∨ t = s.setResult .illegal ∨ t = s := by
  cases r <;> simp only [hostWrite, Host.Outcome.next.injEq] at h
  case arg0 => exact .inl h.symm
  case arg1 => exact .inr (.inl h.symm)
  case arg2 => exact .inr (.inr (.inl h.symm))
  case cmd =>
    unfold writeCmd at h
    cases hd : decode v with
    | ok i => rw [hd] at h; exact .inr (.inr (.inr (.inl ⟨rfl, i, rfl, h⟩)))
    | error e =>
      rw [hd] at h
      simp only [Host.Outcome.next.injEq] at h
      exact .inr (.inr (.inr (.inr (.inl h.symm))))
  all_goals exact .inr (.inr (.inr (.inr (.inr h.symm))))

/-! The step -/

/-- What a step that answers a next state has done: a legal configuration ran one cycle. -/
theorem step_next {s t : State} (h : step s = .next t) :
    s.cfg.wellFormed = true ∧ runCycle (nextPorts s) { s with inputs := s.inputs.tail } = .next t := by
  unfold step at h
  split at h
  · rename_i hc
    exact ⟨hc, h⟩
  · simp at h

/-- What a cycle that answers a next state has done: a reset, or its events in order. -/
theorem runCycle_next {p : PortsIn} {s t : State} (h : runCycle p s = .next t) :
    (p.rst = true ∧ t = State.resetOf s.cfg s.inputs) ∨
    (p.rst = false ∧ ∃ u v, tickPhase p (openCycle p s) = .next u ∧ hostAccess p u = .next v ∧
      edgePhase (edgeFires p s) v = .next t) := by
  unfold runCycle at h
  split at h
  · rename_i hr
    exact .inl ⟨hr, by simpa [resetCycle] using h.symm⟩
  · rename_i hr
    obtain ⟨v, hv, ht⟩ := chain_eq_next.mp h
    obtain ⟨u, hu, hv⟩ := chain_eq_next.mp hv
    exact .inr ⟨by simpa using hr, u, v, hu, hv, ht⟩

end Sys2Proof.Machine
end

