-- ==== Sys2Proof/Laws/PerInstr.lean ====
section
/-! SUPPORT. Laws stated for every instruction as syntax, one lemma per constructor. -/

/-- The fields of an encoded command (30_encoding.md R80): reserved bits zero, and `CH` the command's channel. -/
def Sys2Proof.Laws.EncodedFields.Statement (i : Sys2Proof.Instr) : Prop :=
  ∀ w, Sys2Proof.encode i = some w → Sys2Proof.rsvField w = 0 ∧ i.chan? = some (Sys2Proof.chField w)

namespace Sys2Proof.Laws.EncodedFields

/-- The fields of a CMD word built from an opcode and a channel. -/
theorem of_cmdWord (op : BitVec 4) (c : Chan) : rsvField (cmdWord op c) = 0 ∧ chField (cmdWord op c) = c := by
  cases c <;> revert op <;> decide

/-- The law for any instruction whose encoding is a `cmdWord` of its own channel. -/
theorem of_encode {i : Instr} {op : BitVec 4} {c : Chan} (he : encode i = some (cmdWord op c))
    (hc : i.chan? = some c) : Statement i := by
  intro w hw
  rw [he, Option.some.injEq] at hw
  subst hw
  exact ⟨(of_cmdWord op c).1, by rw [hc, (of_cmdWord op c).2]⟩

theorem wrFreq (c : Chan) : Statement (.wrFreq c) := of_encode rfl rfl
theorem rdFreq (c : Chan) : Statement (.rdFreq c) := of_encode rfl rfl
theorem wrPhase (c : Chan) : Statement (.wrPhase c) := of_encode rfl rfl
theorem rdPhase (c : Chan) : Statement (.rdPhase c) := of_encode rfl rfl
theorem wrAmp (c : Chan) : Statement (.wrAmp c) := of_encode rfl rfl
theorem rdAmp (c : Chan) : Statement (.rdAmp c) := of_encode rfl rfl
theorem wrHarm (c : Chan) : Statement (.wrHarm c) := of_encode rfl rfl
theorem rdHarm (c : Chan) : Statement (.rdHarm c) := of_encode rfl rfl
theorem clrHarm (c : Chan) : Statement (.clrHarm c) := of_encode rfl rfl
theorem tick : Statement .tick := by intro w hw; simp [encode] at hw
theorem edge : Statement .edge := by intro w hw; simp [encode] at hw

end Sys2Proof.Laws.EncodedFields
end

