-- ==== Sys2Proof/Laws/Wave.lean ====
section
/-! SUPPORT. What the ROM computes (40_waveform_table.md R100): the partial sums of the sine series lie around the sine,
`sinFrac` is such a sum exactly, and the two bounds of an entry agree at every legal table size (entry 4). -/

namespace Sys2Proof.Machine

open Finset

/-- The first `m + 1` terms of the sine series. -/
noncomputable def sinSum (m : Nat) (x : ℝ) : ℝ :=
  ∑ j ∈ range (m + 1), (-1) ^ j * (x ^ (2 * j + 1) / (2 * j + 1).factorial)

/-- The first `m + 1` terms of the cosine series. -/
noncomputable def cosSum (m : Nat) (x : ℝ) : ℝ :=
  ∑ j ∈ range (m + 1), (-1) ^ j * (x ^ (2 * j) / (2 * j).factorial)

theorem sinSum_succ (m : Nat) (x : ℝ) :
    sinSum (m + 1) x = sinSum m x + (-1) ^ (m + 1) * (x ^ (2 * m + 3) / (2 * m + 3).factorial) :=
  sum_range_succ _ _

theorem hasDerivAt_term (k : Nat) (x : ℝ) :
    HasDerivAt (fun y : ℝ => y ^ (k + 1) / (k + 1).factorial) (x ^ k / k.factorial) x := by
  have h := (hasDerivAt_pow (k + 1) x).div_const ((k + 1).factorial : ℝ)
  have e : ((k + 1 : Nat) : ℝ) * x ^ (k + 1 - 1) / (k + 1).factorial = x ^ k / k.factorial := by
    rw [Nat.factorial_succ, Nat.cast_mul, mul_div_mul_left _ _ (by positivity), Nat.add_sub_cancel]
  rwa [e] at h

theorem hasDerivAt_sinSum (m : Nat) (x : ℝ) : HasDerivAt (sinSum m) (cosSum m x) x := by
  unfold sinSum cosSum
  exact HasDerivAt.fun_sum fun j _ => (hasDerivAt_term (2 * j) x).const_mul _

theorem hasDerivAt_cosSum_succ (m : Nat) (x : ℝ) : HasDerivAt (cosSum (m + 1)) (-sinSum m x) x := by
  have h : HasDerivAt (fun y : ℝ => ∑ j ∈ range (m + 1), (-1 : ℝ) ^ (j + 1) * (y ^ (2 * (j + 1)) / (2 * (j + 1)).factorial))
      (∑ j ∈ range (m + 1), (-1 : ℝ) ^ (j + 1) * (x ^ (2 * j + 1) / (2 * j + 1).factorial)) x :=
    HasDerivAt.fun_sum fun j _ => (hasDerivAt_term (2 * j + 1) x).const_mul _
  have e : cosSum (m + 1) = fun y => (∑ j ∈ range (m + 1), (-1 : ℝ) ^ (j + 1) * (y ^ (2 * (j + 1)) / (2 * (j + 1)).factorial)) + 1 := by
    funext y
    unfold cosSum
    rw [sum_range_succ']
    simp
  rw [e]
  have e' : -sinSum m x = ∑ j ∈ range (m + 1), (-1 : ℝ) ^ (j + 1) * (x ^ (2 * j + 1) / (2 * j + 1).factorial) := by
    unfold sinSum
    rw [← sum_neg_distrib]
    exact sum_congr rfl fun j _ => by rw [pow_succ]; ring
  rw [e']
  exact h.add_const 1

/-- A function that starts at 0 and whose derivative is nonnegative on the right of 0 is nonnegative there. -/
theorem nonneg_of_deriv_nonneg {f f' : ℝ → ℝ} (h0 : f 0 = 0) (hd : ∀ x, HasDerivAt f (f' x) x)
    (hf : ∀ x, 0 ≤ x → 0 ≤ f' x) {x : ℝ} (hx : 0 ≤ x) : 0 ≤ f x := by
  have hm : MonotoneOn f (Set.Ici 0) := by
    refine monotoneOn_of_deriv_nonneg (convex_Ici 0) (fun y _ => (hd y).continuousAt.continuousWithinAt)
      (fun y _ => (hd y).differentiableAt.differentiableWithinAt) fun y hy => ?_
    rw [(hd y).deriv]
    exact hf y (interior_subset hy)
  rw [← h0]
  exact hm Set.self_mem_Ici hx hx

/-- The partial sums are alternately above and below the sine and the cosine. -/
theorem series_alternate (m : Nat) :
    (∀ x : ℝ, 0 ≤ x → 0 ≤ (-1) ^ m * (cosSum m x - Real.cos x)) ∧
    (∀ x : ℝ, 0 ≤ x → 0 ≤ (-1) ^ m * (sinSum m x - Real.sin x)) := by
  have hs : ∀ m : Nat, (∀ x : ℝ, 0 ≤ x → 0 ≤ (-1) ^ m * (cosSum m x - Real.cos x)) →
      ∀ x : ℝ, 0 ≤ x → 0 ≤ (-1) ^ m * (sinSum m x - Real.sin x) := by
    intro m hc x hx
    exact nonneg_of_deriv_nonneg (f := fun y => (-1) ^ m * (sinSum m y - Real.sin y)) (by simp [sinSum])
      (fun y => ((hasDerivAt_sinSum m y).sub (Real.hasDerivAt_sin y)).const_mul _) hc hx
  induction m with
  | zero =>
    have hc : ∀ x : ℝ, 0 ≤ x → 0 ≤ (-1) ^ 0 * (cosSum 0 x - Real.cos x) := by
      intro x _
      simpa [cosSum] using Real.cos_le_one x
    exact ⟨hc, hs 0 hc⟩
  | succ m ih =>
    have hc : ∀ x : ℝ, 0 ≤ x → 0 ≤ (-1) ^ (m + 1) * (cosSum (m + 1) x - Real.cos x) := by
      intro x hx
      refine nonneg_of_deriv_nonneg (f := fun y => (-1) ^ (m + 1) * (cosSum (m + 1) y - Real.cos y)) ?_
        (fun y => ((hasDerivAt_cosSum_succ m y).sub (Real.hasDerivAt_cos y)).const_mul _) (fun y hy => ?_) hx
      · simp [cosSum, sum_range_succ']
      · have := ih.2 y hy
        rw [pow_succ]
        linarith
    exact ⟨hc, hs _ hc⟩

/-- A partial sum that ends with a negative term is at most the sine. -/
theorem sinSum_le_sin {m : Nat} (hm : m % 2 = 1) {x : ℝ} (hx : 0 ≤ x) : sinSum m x ≤ Real.sin x := by
  have := (series_alternate m).2 x hx
  rw [Odd.neg_one_pow (Nat.odd_iff.mpr hm)] at this
  linarith

/-- A partial sum that ends with a positive term is at least the sine. -/
theorem sin_le_sinSum {m : Nat} (hm : m % 2 = 0) {x : ℝ} (hx : 0 ≤ x) : Real.sin x ≤ sinSum m x := by
  have := (series_alternate m).2 x hx
  rw [Even.neg_one_pow (Nat.even_iff.mpr hm)] at this
  linarith

theorem sinFrac_fields (a b m : Nat) :
    (sinFrac a b m).pow = a ^ (2 * m + 1) ∧ (sinFrac a b m).den = b ^ (2 * m + 1) * (2 * m + 1).factorial := by
  induction m with
  | zero => simp [sinFrac]
  | succ m ih =>
    refine ⟨?_, ?_⟩
    · simp only [sinFrac, ih.1]
      ring
    · simp only [sinFrac, ih.2]
      rw [show 2 * (m + 1) + 1 = 2 * m + 1 + 1 + 1 by ring, Nat.factorial_succ (2 * m + 1 + 1),
        Nat.factorial_succ (2 * m + 1)]
      ring

theorem sinFrac_den_pos {a b : Nat} (hb : 0 < b) (m : Nat) : 0 < (sinFrac a b m).den := by
  rw [(sinFrac_fields a b m).2]
  positivity

/-- `sinFrac` is the partial sum, exactly. -/
theorem sinFrac_eq_sinSum {a b : Nat} (hb : 0 < b) (m : Nat) :
    ((sinFrac a b m).num : ℝ) / (sinFrac a b m).den = sinSum m ((a : ℝ) / b) := by
  have hb' : (b : ℝ) ≠ 0 := by positivity
  induction m with
  | zero => simp [sinFrac, sinSum]
  | succ m ih =>
    rw [sinSum_succ, ← ih]
    have hd : ((sinFrac a b m).den : ℝ) ≠ 0 := by exact_mod_cast (sinFrac_den_pos hb m).ne'
    have hden := (sinFrac_fields a b m).2
    have hpow := (sinFrac_fields a b m).1
    have hf : (((2 * m + 3).factorial : Nat) : ℝ) = (2 * m + 1).factorial * ((2 * m + 2) * (2 * m + 3)) := by
      rw [Nat.factorial_succ (2 * m + 2), Nat.factorial_succ (2 * m + 1)]
      push_cast
      ring
    have hs : (if m % 2 = 0 then -(((sinFrac a b m).pow * (a * a) : Nat) : Int)
        else ((sinFrac a b m).pow * (a * a) : Nat) : Int) = (-1) ^ (m + 1) * ((a ^ (2 * m + 3) : Nat) : Int) := by
      rw [hpow, show a ^ (2 * m + 1) * (a * a) = a ^ (2 * m + 3) by ring]
      rcases Nat.mod_two_eq_zero_or_one m with h | h
      · rw [if_pos h, Odd.neg_one_pow (Nat.odd_iff.mpr (by omega)), neg_one_mul]
      · rw [if_neg (by omega), Even.neg_one_pow (Nat.even_iff.mpr (by omega)), one_mul]
    simp only [sinFrac, hs]
    rw [hf]
    push_cast
    rw [add_div]
    congr 1
    · rw [mul_div_mul_right]
      positivity
    · rw [hden, div_pow]
      push_cast
      field_simp
      ring

/-- What one more pair of terms changes: the two partial sums the ROM uses differ from the sine by less than `10^-22` up
to a quarter cycle. -/
theorem sinSum_near {x : ℝ} (h0 : 0 ≤ x) (h1 : x ≤ 8 / 5) :
    Real.sin x - 1 / 10 ^ 22 ≤ sinSum 13 x ∧ sinSum 12 x ≤ Real.sin x + 1 / 10 ^ 22 := by
  have hs := sinSum_succ 12 x
  have hl := sinSum_le_sin (m := 13) rfl h0
  have hu := sin_le_sinSum (m := 12) rfl h0
  have hp : x ^ 27 ≤ (8 / 5) ^ 27 := pow_le_pow_left₀ h0 h1 27
  have hq : x ^ 27 / ((27).factorial : ℝ) ≤ 1 / 10 ^ 22 := by
    have hf : ((27).factorial : ℝ) = 10888869450418352160768000000 := by norm_num [Nat.factorial]
    rw [hf, div_le_div_iff₀ (by norm_num) (by norm_num)]
    calc x ^ 27 * 10 ^ 22 ≤ (8 / 5) ^ 27 * 10 ^ 22 := by gcongr
      _ ≤ 1 * 10888869450418352160768000000 := by norm_num
  norm_num at hs
  norm_num at hq ⊢
  constructor <;> linarith

/-- `romFloor` reaches a level exactly when the fraction reaches it. -/
theorem le_romFloor_iff {r : SinFrac} (hr : 0 < r.den) (k : Nat) :
    128 + k ≤ romFloor r ↔ 2 * (k : ℝ) / 255 ≤ (r.num : ℝ) / r.den := by
  have hd : (0 : ℝ) < r.den := by exact_mod_cast hr
  have hi : (0 : Int) < 2 * r.den := by omega
  rw [div_le_div_iff₀ (by norm_num) hd]
  have h1 : 128 + k ≤ romFloor r ↔ ((128 + k : Nat) : Int) ≤ (255 * r.num + 256 * r.den) / (2 * r.den) := by
    unfold romFloor
    omega
  rw [h1, Int.le_ediv_iff_mul_le hi]
  constructor
  · intro h
    have : 2 * (k : Int) * r.den ≤ r.num * 255 := by push_cast at h; linarith
    exact_mod_cast this
  · intro h
    have : 2 * (k : Int) * r.den ≤ r.num * 255 := by exact_mod_cast h
    push_cast
    linarith

/-! Where a ROM entry steps up. For `1 <= k <= 127` the sine reaches `2k/255` strictly between two neighbouring fractions
of the quarter cycle, and no fraction of a denominator up to `2^29` lies between them. -/

/-- The step to level `128 + k` lies above `a/b` and at or below `c/d`. -/
structure LevelGap where
  k : Nat
  a : Nat
  b : Nat
  c : Nat
  d : Nat

/-- The two fractions are neighbours at denominators up to `2^29`, and the bounds of `romHi` and `romLo` decide the level
at each with `10^-22` to spare. -/
def LevelGap.ok (g : LevelGap) : Bool :=
  let hi := sinFrac (g.a * piHi) (2 * g.b * 10 ^ 20) 12
  let lo := sinFrac (g.c * piLo) (2 * g.d * 10 ^ 20) 13
  decide (0 < g.b) && decide (0 < g.d) && decide (g.b * g.c = g.a * g.d + 1) && decide (2 ^ 29 < g.b + g.d) &&
    decide (g.a * piHi ≤ g.b * piLo) &&
    decide (255 * (hi.num * 10 ^ 22 + hi.den) < 2 * g.k * hi.den * 10 ^ 22) &&
    decide (2 * g.k * lo.den * 10 ^ 22 ≤ 255 * (lo.num * 10 ^ 22 - lo.den))

/-- Levels 129 to 160. -/
def levelGaps0 : List LevelGap :=
  [⟨1, 728870, 145974059, 2242629, 449141353⟩, ⟨2, 418869, 41943095, 5333534, 534068941⟩,
   ⟨3, 6463440, 431451961, 3828361, 255553368⟩, ⟨4, 10031779, 502200059, 2860993, 143223934⟩,
   ⟨5, 3640640, 145789557, 9905693, 396673825⟩, ⟨6, 13752447, 458879195, 2753639, 91880932⟩,
   ⟨7, 9916238, 283570171, 9549605, 273085733⟩, ⟨8, 18058083, 451779314, 17270840, 432083973⟩,
   ⟨9, 21344504, 474583133, 21285837, 473278705⟩, ⟨10, 25859475, 517372688, 1428152, 28573157⟩,
   ⟨11, 22938831, 417127112, 12017996, 218539121⟩, ⟨12, 25445157, 424043768, 25166669, 419402763⟩,
   ⟨13, 14852488, 228418117, 28595821, 439778412⟩, ⟨14, 30515803, 435662558, 8445837, 120578015⟩,
   ⟨15, 28111983, 374475430, 17856634, 237865493⟩, ⟨16, 35155559, 438891919, 24005948, 299697029⟩,
   ⟨17, 41506258, 487527875, 10243921, 120323953⟩, ⟨18, 36295233, 402488843, 17039291, 188953864⟩,
   ⟨19, 39851796, 418507961, 30745061, 322872595⟩, ⟨20, 52922218, 527765233, 1241883, 12384641⟩,
   ⟨21, 28357906, 269216395, 37171977, 352892969⟩, ⟨22, 17755182, 160824991, 47792059, 432896574⟩,
   ⟨23, 12451306, 107828383, 58714113, 508464563⟩, ⟨24, 28154914, 233547029, 36719793, 304593314⟩,
   ⟨25, 57729164, 459475511, 34670611, 275948855⟩, ⟨26, 65914944, 504177749, 22816637, 174522498⟩,
   ⟨27, 13534592, 99634741, 71760157, 528261558⟩, ⟨28, 73841558, 523864087, 47976113, 340363385⟩,
   ⟨29, 62151620, 425467861, 57674601, 394819783⟩, ⟨30, 16822063, 111249177, 72464342, 479227691⟩,
   ⟨31, 64821009, 414580931, 41897363, 267966328⟩, ⟨32, 80647997, 499350046, 83275013, 515615801⟩]

/-- Levels 161 to 192. -/
def levelGaps1 : List LevelGap :=
  [⟨33, 55781958, 334685813, 49785515, 298707793⟩, ⟨34, 92087076, 535874273, 8916617, 51887690⟩,
   ⟨35, 21281707, 120214474, 74475655, 420692367⟩, ⟨36, 87869109, 482188358, 23181971, 127212813⟩,
   ⟨37, 52952281, 282500970, 63808717, 340420169⟩, ⟨38, 75681793, 392814977, 91606535, 475469958⟩,
   ⟨39, 103598844, 523483343, 9396935, 47482566⟩, ⟨40, 60963367, 300084011, 61752700, 303969397⟩,
   ⟨41, 84467085, 405273082, 53306278, 255763527⟩, ⟨42, 110252525, 515919934, 102872164, 481383987⟩,
   ⟨43, 24092446, 110012755, 103815487, 474050154⟩, ⟨44, 113597850, 506435389, 16748359, 74666569⟩,
   ⟨45, 73288281, 319148608, 68352718, 297655703⟩, ⟨46, 35764532, 152201219, 108961287, 463700761⟩,
   ⟨47, 67281004, 279935841, 127983497, 532500494⟩, ⟨48, 131852463, 536585867, 414596, 1687237⟩,
   ⟨49, 116260829, 462962206, 52139695, 207625461⟩, ⟨50, 133020045, 518511934, 135524449, 528274097⟩,
   ⟨51, 37852523, 144486440, 111624298, 426079853⟩, ⟨52, 32685653, 122217705, 122687629, 458751748⟩,
   ⟨53, 37627856, 137872825, 138926857, 509044104⟩, ⟨54, 148571877, 533628947, 3764885, 13522422⟩,
   ⟨55, 56264181, 198154424, 150793562, 531073427⟩, ⟨56, 65039175, 224670283, 94121797, 325132826⟩,
   ⟨57, 81383663, 275823455, 116477716, 394763333⟩, ⟨58, 113994353, 379157893, 73291760, 243776543⟩,
   ⟨59, 164392793, 536756065, 10410385, 33990768⟩, ⟨60, 69407927, 222520842, 110565152, 354470329⟩,
   ⟨61, 105438136, 331995641, 106902609, 336606863⟩, ⟨62, 162119913, 501470575, 41162050, 127322773⟩,
   ⟨63, 121222690, 368438317, 107303793, 326133902⟩, ⟨64, 172803070, 516175727, 77233773, 230703071⟩]

/-- Levels 193 to 224. -/
def levelGaps2 : List LevelGap :=
  [⟨65, 28626573, 84056341, 170773384, 501442691⟩, ⟨66, 118954951, 343419380, 161253003, 465532589⟩,
   ⟨67, 183628954, 521323495, 183272819, 520312426⟩, ⟨68, 183661882, 512847683, 101583655, 283656802⟩,
   ⟨69, 170087973, 467220994, 32497426, 89268391⟩, ⟨70, 191640598, 517950985, 49544039, 133903693⟩,
   ⟨71, 94863463, 252303064, 186656615, 496440193⟩, ⟨72, 184170359, 482095140, 56681034, 148371601⟩,
   ⟨73, 65880385, 169755097, 160774598, 414270613⟩, ⟨74, 202349915, 513316022, 9874778, 25050081⟩,
   ⟨75, 147065432, 367338291, 159492723, 398379031⟩, ⟨76, 96099165, 236376917, 136581848, 335952931⟩,
   ⟨77, 108898107, 263808676, 202875115, 491470577⟩, ⟨78, 157265938, 375264595, 148481919, 354304358⟩,
   ⟨79, 53051351, 124704440, 226864025, 533274849⟩, ⟨80, 121310573, 280939337, 156140812, 361601591⟩,
   ⟨81, 142304434, 324716377, 184018661, 419901694⟩, ⟨82, 174473804, 392309523, 71213919, 160126609⟩,
   ⟨83, 234044497, 518619088, 222156564, 492276623⟩, ⟨84, 76562794, 167207385, 176380075, 385200821⟩,
   ⟨85, 198169726, 426575963, 190575345, 410228459⟩, ⟨86, 137943366, 292693207, 144512965, 306632819⟩,
   ⟨87, 251854117, 526796129, 10026944, 20973075⟩, ⟨88, 161736561, 333510818, 152255189, 313959641⟩,
   ⟨89, 164573429, 334575147, 211258891, 429485944⟩, ⟨90, 182756141, 366319225, 101541683, 203531714⟩,
   ⟨91, 254073634, 502134535, 155798845, 307910661⟩, ⟨92, 74355439, 144897995, 270642875, 527407416⟩,
   ⟨93, 277008118, 532285925, 158457071, 304483743⟩, ⟨94, 210685219, 399209037, 156081078, 295744415⟩,
   ⟨95, 122126154, 228190153, 206731945, 386274296⟩, ⟨96, 41127699, 75779147, 262610534, 483868603⟩]

/-- Levels 225 to 255. -/
def levelGaps3 : List LevelGap :=
  [⟨97, 152653513, 277364746, 190829167, 346728237⟩, ⟨98, 30232981, 54169326, 288042986, 516095135⟩,
   ⟨99, 192918491, 340855079, 131199859, 231808460⟩, ⟨100, 287725648, 501290873, 53981241, 94048979⟩,
   ⟨101, 4184701, 7189174, 311130070, 534510879⟩, ⟨102, 131803675, 223269488, 218703552, 370473965⟩,
   ⟨103, 305204192, 509752325, 21811341, 36429322⟩, ⟨104, 72178809, 118855732, 290262055, 477970051⟩,
   ⟨105, 154853439, 251386912, 285853585, 464050721⟩, ⟨106, 8325334, 13322905, 328881949, 526304766⟩,
   ⟨107, 272171099, 429311588, 117407452, 185193725⟩, ⟨108, 307731521, 478395358, 73294910, 113943299⟩,
   ⟨109, 329361799, 504563645, 30616340, 46902501⟩, ⟨110, 247862252, 374124085, 285818817, 431415847⟩,
   ⟨111, 252416557, 375327779, 209636282, 311716161⟩, ⟨112, 128099235, 187603483, 297802297, 436136470⟩,
   ⟨113, 332348750, 479281773, 56191587, 81034165⟩, ⟨114, 296731048, 421258147, 293574643, 416777115⟩,
   ⟨115, 69563121, 97189867, 324908974, 453945417⟩, ⟨116, 312881824, 430056637, 164488981, 226090404⟩,
   ⟨117, 12528443, 16934273, 393688194, 532135027⟩, ⟨118, 199481126, 265023151, 275204835, 365626834⟩,
   ⟨119, 340238267, 444043048, 84881326, 110778141⟩, ⟨120, 402340472, 515453419, 164375195, 210587207⟩,
   ⟨121, 351870333, 442134047, 170898677, 214738546⟩, ⟨122, 422985094, 520706043, 168910765, 207933701⟩,
   ⟨123, 393991787, 474483927, 87612736, 105511933⟩, ⟨124, 175818701, 206726554, 382348794, 449563375⟩,
   ⟨125, 320306603, 366599468, 159968910, 183088693⟩, ⟨126, 1744505, 1933503, 483255622, 535611073⟩,
   ⟨127, 190563697, 201953562, 399808496, 423704783⟩]

/-- The gaps of all 127 levels. -/
def levelGaps : List LevelGap := levelGaps0 ++ levelGaps1 ++ levelGaps2 ++ levelGaps3

theorem levelGaps_ok : ∀ g ∈ levelGaps, g.ok = true := by decide +kernel

theorem exists_levelGap : ∀ k : Nat, k < 127 → ∃ g ∈ levelGaps, g.k = k + 1 := by decide +kernel

/-- No fraction of a small denominator lies strictly between two neighbours. -/
theorem neighbours_separate {a b c d i q : Nat} (h : b * c = a * d + 1) (hbd : q < b + d) :
    i * b ≤ a * q ∨ c * q ≤ i * d := by
  by_contra hn
  push Not at hn
  obtain ⟨h1, h2⟩ := hn
  have e : q = b * (c * q - i * d) + d * (i * b - a * q) := by
    zify [h1.le, h2.le]
    have h' : (b : Int) * c = a * d + 1 := by exact_mod_cast h
    linear_combination (-(q : Int)) * h'
  have g1 : b * 1 ≤ b * (c * q - i * d) := Nat.mul_le_mul_left _ (by omega)
  have g2 : d * 1 ≤ d * (i * b - a * q) := Nat.mul_le_mul_left _ (by omega)
  omega

/-- The angle of entry `i` of `q` at a value `p / 10^20` of pi. -/
theorem angle_eq (i p q : Nat) :
    (((i * p : Nat) : ℝ) / ((2 * q * 10 ^ 20 : Nat) : ℝ)) = (i : ℝ) / q * (p / 10 ^ 20) / 2 := by
  push_cast
  ring

theorem piLo_lt_pi : (piLo : ℝ) / 10 ^ 20 < Real.pi := by
  have := Real.pi_gt_d20
  norm_num [piLo] at this ⊢
  linarith

theorem pi_lt_piHi : Real.pi < (piHi : ℝ) / 10 ^ 20 := by
  have := Real.pi_lt_d20
  norm_num [piHi] at this ⊢
  linarith

/-- Both angles of an entry lie in the first quarter cycle, with the exact angle between them. -/
theorem angles_ordered {i q : Nat} (hq : 0 < q) (hiq : i * piHi ≤ q * piLo) :
    0 ≤ (i : ℝ) / q * (piLo / 10 ^ 20) / 2 ∧
    (i : ℝ) / q * (piLo / 10 ^ 20) / 2 ≤ (i : ℝ) / q * Real.pi / 2 ∧
    (i : ℝ) / q * Real.pi / 2 ≤ (i : ℝ) / q * (piHi / 10 ^ 20) / 2 ∧
    (i : ℝ) / q * (piHi / 10 ^ 20) / 2 ≤ Real.pi / 2 := by
  have hq' : (0 : ℝ) < q := by exact_mod_cast hq
  have h0 : (0 : ℝ) ≤ (i : ℝ) / q := by positivity
  have hl := mul_le_mul_of_nonneg_left piLo_lt_pi.le h0
  have hu := mul_le_mul_of_nonneg_left pi_lt_piHi.le h0
  refine ⟨by positivity, by linarith, by linarith, ?_⟩
  have h1 : (i : ℝ) / q * (piHi / 10 ^ 20) ≤ piLo / 10 ^ 20 := by
    have : (i : ℝ) * piHi ≤ q * piLo := by exact_mod_cast hiq
    rw [div_mul_div_comm, div_le_div_iff₀ (by positivity) (by norm_num)]
    nlinarith
  linarith [piLo_lt_pi]

theorem pi_half_lt : Real.pi / 2 < 8 / 5 := by linarith [Real.pi_lt_d2]

/-- A legal index of a legal table stays below the quarter cycle by more than the error of pi. -/
theorem index_angle_ok {i q : Nat} (hi : i < q) (hq : q ≤ 2 ^ 29) : i * piHi ≤ q * piLo := by
  unfold piHi piLo
  omega

/-- A level that the upper bound reaches is reached by the lower bound. -/
theorem level_decided {i q k : Nat} (hi : i < q) (hq : q ≤ 2 ^ 29) (hk : k < 127)
    (h : 2 * ((k + 1 : Nat) : ℝ) / 255 ≤ sinSum 12 ((i : ℝ) / q * (piHi / 10 ^ 20) / 2)) :
    2 * ((k + 1 : Nat) : ℝ) / 255 ≤ sinSum 13 ((i : ℝ) / q * (piLo / 10 ^ 20) / 2) := by
  obtain ⟨g, hg, hgk⟩ := exists_levelGap k hk
  have hok := levelGaps_ok g hg
  simp only [LevelGap.ok, Bool.and_eq_true, decide_eq_true_eq] at hok
  obtain ⟨⟨⟨⟨⟨⟨hb, hd⟩, hbc⟩, hbd⟩, hab⟩, hup⟩, hdown⟩ := hok
  have hq0 : 0 < q := by omega
  have hq' : (0 : ℝ) < q := by exact_mod_cast hq0
  have hpi := pi_half_lt
  have hpos := Real.pi_pos
  obtain ⟨a0, a1, a2, a3⟩ := angles_ordered hq0 (index_angle_ok hi hq)
  have hb2 : 0 < 2 * g.b * 10 ^ 20 := by positivity
  have hd2 : 0 < 2 * g.d * 10 ^ 20 := by positivity
  have hbq : (0 : ℝ) < g.b := by exact_mod_cast hb
  have hdq : (0 : ℝ) < g.d := by exact_mod_cast hd
  rcases neighbours_separate (i := i) (q := q) hbc (by omega) with hs | hs
  · exfalso
    obtain ⟨b0, b1, b2, b3⟩ := angles_ordered hb hab
    have hfrac : (i : ℝ) / q ≤ (g.a : ℝ) / g.b := by
      rw [div_le_div_iff₀ hq' hbq]
      exact_mod_cast hs
    have hang : (i : ℝ) / q * (piHi / 10 ^ 20) / 2 ≤ (g.a : ℝ) / g.b * (piHi / 10 ^ 20) / 2 := by gcongr
    have h1 := (sinSum_near (x := (i : ℝ) / q * (piHi / 10 ^ 20) / 2) (by linarith) (by linarith)).2
    have h2 := Real.sin_le_sin_of_le_of_le_pi_div_two (by linarith) b3 hang
    have h3 := sin_le_sinSum (m := 12) rfl (x := (g.a : ℝ) / g.b * (piHi / 10 ^ 20) / 2) (by linarith)
    have h4 : sinSum 12 ((g.a : ℝ) / g.b * (piHi / 10 ^ 20) / 2) + 1 / 10 ^ 22 < 2 * ((k + 1 : Nat) : ℝ) / 255 := by
      rw [← angle_eq, ← sinFrac_eq_sinSum hb2, ← hgk]
      have hden : (0 : ℝ) < (sinFrac (g.a * piHi) (2 * g.b * 10 ^ 20) 12).den := by
        exact_mod_cast sinFrac_den_pos hb2 12
      have hup' : (255 : ℝ) * ((sinFrac (g.a * piHi) (2 * g.b * 10 ^ 20) 12).num * 10 ^ 22 +
          (sinFrac (g.a * piHi) (2 * g.b * 10 ^ 20) 12).den) <
          2 * g.k * (sinFrac (g.a * piHi) (2 * g.b * 10 ^ 20) 12).den * 10 ^ 22 := by exact_mod_cast hup
      rw [div_add_div _ _ hden.ne' (by norm_num), div_lt_div_iff₀ (by positivity) (by norm_num)]
      linarith
    linarith
  · have hca : (g.c : ℝ) / g.d ≤ (i : ℝ) / q := by
      rw [div_le_div_iff₀ hdq hq']
      exact_mod_cast hs
    have hang : (g.c : ℝ) / g.d * (piLo / 10 ^ 20) / 2 ≤ (i : ℝ) / q * (piLo / 10 ^ 20) / 2 := by gcongr
    have hc0 : (0 : ℝ) ≤ (g.c : ℝ) / g.d * (piLo / 10 ^ 20) / 2 := by positivity
    have h1 := (sinSum_near (x := (i : ℝ) / q * (piLo / 10 ^ 20) / 2) a0 (by linarith)).1
    have h2 := Real.sin_le_sin_of_le_of_le_pi_div_two (by linarith) (by linarith) hang
    have h3 := sinSum_le_sin (m := 13) rfl hc0
    have h4 : 2 * ((k + 1 : Nat) : ℝ) / 255 ≤ sinSum 13 ((g.c : ℝ) / g.d * (piLo / 10 ^ 20) / 2) - 1 / 10 ^ 22 := by
      rw [← angle_eq, ← sinFrac_eq_sinSum hd2, ← hgk]
      have hden : (0 : ℝ) < (sinFrac (g.c * piLo) (2 * g.d * 10 ^ 20) 13).den := by
        exact_mod_cast sinFrac_den_pos hd2 13
      have hdown' : 2 * (g.k : ℝ) * (sinFrac (g.c * piLo) (2 * g.d * 10 ^ 20) 13).den * 10 ^ 22 ≤
          255 * ((sinFrac (g.c * piLo) (2 * g.d * 10 ^ 20) 13).num * 10 ^ 22 -
            (sinFrac (g.c * piLo) (2 * g.d * 10 ^ 20) 13).den) := by exact_mod_cast hdown
      rw [div_sub_div _ _ hden.ne' (by norm_num), div_le_div_iff₀ (by norm_num) (by positivity)]
      linarith
    linarith

/-- The lower partial sum of a legal angle is not negative. -/
theorem sinSum_nonneg {i q : Nat} (hi : i < q) (hq : q ≤ 2 ^ 29) :
    0 ≤ sinSum 13 ((i : ℝ) / q * (piLo / 10 ^ 20) / 2) := by
  have hq0 : 0 < q := by omega
  obtain ⟨a0, a1, a2, a3⟩ := angles_ordered hq0 (index_angle_ok hi hq)
  rcases Nat.eq_zero_or_pos i with rfl | hi0
  · simp [sinSum]
  · have h1 := (sinSum_near a0 (by linarith [pi_half_lt])).1
    have h2 := Real.mul_le_sin a0 (by linarith)
    have hq' : (0 : ℝ) < q := by exact_mod_cast hq0
    have hx : 1 / 2 ^ 29 ≤ (i : ℝ) / q := by
      rw [div_le_div_iff₀ (by norm_num) hq']
      have h3 : q ≤ i * 2 ^ 29 := by omega
      have h4 : (q : ℝ) ≤ i * 2 ^ 29 := by exact_mod_cast h3
      linarith
    have h5 : (1 : ℝ) / 2 ^ 30 ≤ (i : ℝ) / q * (piLo / 10 ^ 20) / 2 := by
      have : (2 : ℝ) ≤ piLo / 10 ^ 20 := by norm_num [piLo]
      nlinarith
    have h6 : (1 : ℝ) / 2 ≤ 2 / Real.pi := by
      rw [div_le_div_iff₀ (by norm_num) Real.pi_pos]
      linarith [pi_half_lt]
    have h7 : (1 : ℝ) / 10 ^ 22 ≤ 1 / 2 * (1 / 2 ^ 30) := by norm_num
    have h8 : (1 : ℝ) / 2 * (1 / 2 ^ 30) ≤ 2 / Real.pi * ((i : ℝ) / q * (piLo / 10 ^ 20) / 2) :=
      mul_le_mul h6 h5 (by norm_num) (by positivity)
    linarith

/-- What a bound of an entry is: the levels its partial sum reaches. -/
theorem romLo_level {n i q : Nat} (hq : n / 4 = q) (h0 : 0 < q) (k : Nat) :
    128 + k ≤ romLo n i ↔ 2 * (k : ℝ) / 255 ≤ sinSum 13 ((i : ℝ) / q * (piLo / 10 ^ 20) / 2) := by
  have h : 0 < 2 * q * 10 ^ 20 := by positivity
  unfold romLo
  rw [hq, le_romFloor_iff (sinFrac_den_pos h 13), sinFrac_eq_sinSum h, angle_eq]

theorem romHi_level {n i q : Nat} (hq : n / 4 = q) (h0 : 0 < q) (k : Nat) :
    128 + k ≤ romHi n i ↔ 2 * (k : ℝ) / 255 ≤ sinSum 12 ((i : ℝ) / q * (piHi / 10 ^ 20) / 2) := by
  have h : 0 < 2 * q * 10 ^ 20 := by positivity
  unfold romHi
  rw [hq, le_romFloor_iff (sinFrac_den_pos h 12), sinFrac_eq_sinSum h, angle_eq]

/-- The bounds decide every entry of every legal table: no entry lies between them and a rounding boundary. -/
theorem romLo_eq_romHi {n i : Nat} (hn : n ≤ 2 ^ 31) (hi : i < n / 4) : romLo n i = romHi n i := by
  obtain ⟨q, hq⟩ : ∃ q, n / 4 = q := ⟨_, rfl⟩
  rw [hq] at hi
  have hq0 : 0 < q := by omega
  have hq29 : q ≤ 2 ^ 29 := by omega
  obtain ⟨a0, a1, a2, a3⟩ := angles_ordered hq0 (index_angle_ok hi hq29)
  have hlo := romLo_level (i := i) hq hq0
  have hhi := romHi_level (i := i) hq hq0
  have hsin : Real.sin ((i : ℝ) / q * (piLo / 10 ^ 20) / 2) ≤ Real.sin ((i : ℝ) / q * (piHi / 10 ^ 20) / 2) :=
    Real.sin_le_sin_of_le_of_le_pi_div_two (by linarith [Real.pi_pos]) a3 (by linarith)
  have hle : sinSum 13 ((i : ℝ) / q * (piLo / 10 ^ 20) / 2) ≤ sinSum 12 ((i : ℝ) / q * (piHi / 10 ^ 20) / 2) :=
    (sinSum_le_sin rfl a0).trans (hsin.trans (sin_le_sinSum rfl (by linarith)))
  have hnn := sinSum_nonneg hi hq29
  have hlo0 : 128 ≤ romLo n i := by simpa using (hlo 0).mpr (by simpa using hnn)
  have hmax : romHi n i < 256 := by
    by_contra hc
    have h1 := (hhi 128).mp (by omega)
    have h2 := (sinSum_near (x := (i : ℝ) / q * (piHi / 10 ^ 20) / 2) (by linarith) (by linarith [pi_half_lt])).2
    have h3 := Real.sin_le_one ((i : ℝ) / q * (piHi / 10 ^ 20) / 2)
    norm_num at h1 h2
    linarith
  have hlh : romLo n i ≤ romHi n i := by
    have := (hhi (romLo n i - 128)).mpr (((hlo (romLo n i - 128)).mp (by omega)).trans hle)
    omega
  rcases Nat.eq_zero_or_pos (romHi n i - 128) with h0 | hpos
  · omega
  · have h1 := (hhi (romHi n i - 129 + 1)).mp (by omega)
    have h2 := (hlo (romHi n i - 129 + 1)).mpr (level_decided hi hq29 (by omega) h1)
    omega

end Sys2Proof.Machine
end

