-- ==== Sys2Proof/Tests/Slice0.lean ====
section
/-! SUPPORT. The model's own tests. Expected values are those of 95_test_vectors.md, whose vector a comment names, or
are written out from the rule a comment names. The theorems `witness_<Name>` show states and operands that meet the
hypotheses of `Obligations.<Name>`, at boundary values where its clauses have ranges. -/

namespace Sys2Proof.Tests

open Sys2Proof.Machine

/-! Helpers -/

/-- The next state of an outcome, if there is one. -/
def nextOf : Host.Outcome State Fault Refusal → Option State
  | .next s => some s
  | .fault _ => none
  | .refused _ => none

/-- The reason of a refusal, if it is one. -/
def refusalOf : Host.Outcome State Fault Refusal → Option Refusal
  | .next _ => none
  | .fault _ => none
  | .refused r => some r

/-- The state after reset with three operands in place. -/
def args (k str p : Int) : State :=
  { State.reset with arg0 := u32 k, arg1 := u32 str, arg2 := u32 p }

/-- `s` with the first slots of channel A's bank replaced. -/
def withBankA (slots : List Slot) (s : State) : State :=
  s.setBank .A (slots ++ s.chA.bank.drop slots.length)

/-- Eight active harmonics on channel A: V6 row 11. -/
def fullBank : List Slot :=
  [⟨3, 100, 0, 0⟩, ⟨5, 100, 0, 0⟩, ⟨7, 100, 0, 0⟩, ⟨9, 100, 0, 0⟩,
   ⟨11, 100, 0, 0⟩, ⟨13, 100, 0, 0⟩, ⟨15, 100, 0, 0⟩, ⟨17, 100, 0, 0⟩]

/-- The state after reset with one cycle placed. -/
def placed (p : PortsIn) : State := { State.reset with inputs := [p] }

/-! WellFormed: each check of 00_scope.md R1 refuses an ill-formed configuration -/

theorem smoke_reference_accepted : Config.reference.wellFormed = true := by decide

theorem smoke_tableOk_refuses :
    ({ Config.reference with n := 1022 } : Config).tableOk = false ∧
    ({ Config.reference with n := 0 } : Config).tableOk = false ∧
    ({ Config.reference with n := 2 ^ 31 + 4 } : Config).tableOk = false := by decide

theorem smoke_periodOk_refuses :
    ({ Config.reference with tsUs := 0 } : Config).periodOk = false ∧
    ({ Config.reference with tsUs := 1000001 } : Config).periodOk = false := by decide

theorem smoke_freqOk_refuses :
    ({ Config.reference with minFreq := 0 } : Config).freqOk = false ∧
    ({ Config.reference with minFreq := 10000001 } : Config).freqOk = false ∧
    ({ Config.reference with maxFreq := 2 ^ 31 } : Config).freqOk = false := by decide

theorem smoke_slotsOk_refuses : ({ Config.reference with slots := 0 } : Config).slotsOk = false := by decide

theorem smoke_ampOk_refuses :
    ({ Config.reference with ampFull := 0 } : Config).ampOk = false ∧
    ({ Config.reference with ampFull := 20500 } : Config).ampOk = false ∧
    ({ Config.reference with ampFull := 2147483000 } : Config).ampOk = false := by decide

theorem smoke_rampOk_refuses :
    ({ Config.reference with rampStep := 0 } : Config).rampOk = false ∧
    ({ Config.reference with rampStep := 20001 } : Config).rampOk = false := by decide

theorem smoke_resetOk_refuses :
    ({ Config.reference with freqReset := 999 } : Config).resetOk = false ∧
    ({ Config.reference with freqReset := 10000001 } : Config).resetOk = false := by decide

theorem smoke_badConfig_step_refused :
    refusalOf (step { State.reset with cfg := { Config.reference with slots := 0 } }) = some .badConfig := by decide

theorem smoke_isCommand_refuses_events :
    Instr.tick.isCommand = false ∧ Instr.edge.isCommand = false := by decide

theorem smoke_accessDefined_refuses :
    (PortsIn.memRead false 0x24).accessDefined = true ∧
    (PortsIn.memRead false 0x25).accessDefined = false ∧
    (PortsIn.memRead false 0x26).accessDefined = false ∧
    ({ PortsIn.memRead false 0x24 with busBe := 0b0111 } : PortsIn).accessDefined = false := by decide

/-! Decode: words written out as RSV (27 bits), CH, OP from 30_encoding.md R80 and R82 -/

theorem test_decode_wrFreq :
    decode (0b000000000000000000000000000_0_0001#32) = .ok (.wrFreq .A) ∧
    decode (0b000000000000000000000000000_1_0001#32) = .ok (.wrFreq .B) := by decide
theorem test_decode_rdFreq :
    decode (0b000000000000000000000000000_0_0010#32) = .ok (.rdFreq .A) ∧
    decode (0b000000000000000000000000000_1_0010#32) = .ok (.rdFreq .B) := by decide
theorem test_decode_wrPhase :
    decode (0b000000000000000000000000000_0_0011#32) = .ok (.wrPhase .A) ∧
    decode (0b000000000000000000000000000_1_0011#32) = .ok (.wrPhase .B) := by decide
theorem test_decode_rdPhase :
    decode (0b000000000000000000000000000_0_0100#32) = .ok (.rdPhase .A) ∧
    decode (0b000000000000000000000000000_1_0100#32) = .ok (.rdPhase .B) := by decide
theorem test_decode_wrAmp :
    decode (0b000000000000000000000000000_0_0101#32) = .ok (.wrAmp .A) ∧
    decode (0b000000000000000000000000000_1_0101#32) = .ok (.wrAmp .B) := by decide
theorem test_decode_rdAmp :
    decode (0b000000000000000000000000000_0_0110#32) = .ok (.rdAmp .A) ∧
    decode (0b000000000000000000000000000_1_0110#32) = .ok (.rdAmp .B) := by decide
theorem test_decode_wrHarm :
    decode (0b000000000000000000000000000_0_0111#32) = .ok (.wrHarm .A) ∧
    decode (0b000000000000000000000000000_1_0111#32) = .ok (.wrHarm .B) := by decide
theorem test_decode_rdHarm :
    decode (0b000000000000000000000000000_0_1000#32) = .ok (.rdHarm .A) ∧
    decode (0b000000000000000000000000000_1_1000#32) = .ok (.rdHarm .B) := by decide
theorem test_decode_clrHarm :
    decode (0b000000000000000000000000000_0_1001#32) = .ok (.clrHarm .A) ∧
    decode (0b000000000000000000000000000_1_1001#32) = .ok (.clrHarm .B) := by decide

/-- V3: ILLEGAL words, by the reason. -/
theorem test_decode_illegal :
    decode 0x00000000 = .error (.reservedOpcode 0x0) ∧ decode 0x00000010 = .error (.reservedOpcode 0x0) ∧
    decode 0x0000000A = .error (.reservedOpcode 0xA) ∧ decode 0x0000001A = .error (.reservedOpcode 0xA) ∧
    decode 0x0000000F = .error (.reservedOpcode 0xF) ∧ decode 0x00000027 = .error (.reservedBits 0x1) ∧
    decode 0x00000106 = .error (.reservedBits 0x8) ∧ decode 0x80000001 = .error (.reservedBits 0x4000000) := by
  decide

theorem test_decodeTableWord :
    decodeTableWord 32 0x00000019 = some (.clrHarm .B) ∧ decodeTableWord 8 0x07 = some (.wrHarm .A) ∧
    decodeTableWord 32 0x0000000A = none ∧ encode .tick = none ∧ encode .edge = none := by decide

/-! Helper functions: V1 -/

theorem test_stepOf :
    [1000, 9765, 9766, 29296, 29297, 50000, 440000, 1000000, 3000000, 9999999, 10000000].map
      (stepOf Config.reference) = [0, 0, 1, 1, 2, 3, 23, 51, 154, 512, 512] := by decide

theorem test_periodOf :
    [1000, 1001, 25000, 50000, 60000, 333333, 1000000, 3000000, 7000000, 10000000].map
      (periodOf Config.reference) = [10000, 9990, 400, 200, 167, 30, 10, 3, 1, 1] := by decide

theorem test_ticksOf :
    [0, 1, 2, 3, 5, 6, 7, 100, 450, 900, 1234, 1800, 2700, 3599, 3600, -1, -2, -3, -450, -900, -1800, -3599, -3600,
      1000000000].map (ticksOf Config.reference) =
    [0, 0, 1, 1, 1, 2, 2, 28, 128, 256, 351, 512, 768, 0, 0, 0, 1023, 1023, 896, 768, 512, 0, 0, 796] := by decide

/-! Waveform: V2 -/

theorem test_wsample_spots :
    [0, 1, 127, 128, 255, 256, 257, 383, 384, 511, 512, 513, 640, 700, 767, 768, 769, 900, 1000, 1023].map
      (wsample 1024) =
    [128, 128, 217, 218, 255, 255, 255, 218, 217, 128, 127, 127, 37, 11, 0, 0, 0, 40, 110, 127] := by
  decide +kernel

theorem test_wsample_index_reduction :
    [1024, -1, -256, 2047].map (wsample 1024) = [128, 127, 0, 127] := by decide +kernel

theorem test_rom_sum : ((List.range 256).map (rom 1024)).sum = 53359 := by decide +kernel

/-! Mixer and ramp: V7 -/

theorem test_mixOut_rows :
    mixOut 20000 20000 255000 = 255 ∧ mixOut 20000 20000 (-255000) = 0 ∧ mixOut 20000 20000 (-386000) = 0 ∧
    mixOut 20000 20000 (-118000) = 68 ∧ mixOut 20000 1 255000 = 127 ∧ mixOut 20000 10000 255000 = 191 ∧
    mixOut 20000 10000 (-255000) = 63 := by decide

theorem test_rampTo_snaps : rampTo 3 20 15 = 18 ∧ rampTo 3 20 18 = 20 ∧ rampTo 1 0 10 = 9 := by decide

/-! Channel commands: V5 -/

theorem test_wrFreq_sets :
    (nextOf (exec (.wrFreq .A) (args 1000000 0 0))).map (fun t => (t.chA.freq, t.chA.step, t.chB.freq, t.result)) =
      some (1000000, 51, 50000, .ok) := by decide

theorem test_wrFreq_rejects_negative :
    (nextOf (exec (.wrFreq .B) { State.reset with arg0 := 0xFFF0BDC0 })).map
      (fun t => (t.chB.freq, t.chB.step, t.result)) = some (50000, 3, .rejectRange) := by decide

theorem test_rdFreq :
    (nextOf (exec (.rdFreq .B) State.reset)).map (fun t => (t.res0, t.res1, t.res2, t.res3)) =
      some (50000, 3, 0, 0) := by decide

theorem test_wrPhase_wraps :
    (nextOf (exec (.wrPhase .A) (args (-2) 0 0))).map (fun t => (t.chA.phase, t.chA.off, t.result)) =
      some (-2, 1023, .ok) := by decide

theorem test_wrPhase_clamps :
    (nextOf (exec (.wrPhase .B) { State.reset with arg0 := 0x80000000 })).map
      (fun t => (t.chB.phase, t.chB.off, t.result)) = some (-3600, 0, .ok) := by decide

theorem test_rdPhase_negative :
    (nextOf (exec (.rdPhase .A) { State.reset with chA := { State.reset.chA with phase := -900, off := 768 } })).map
      (fun t => (t.res0, t.res1)) = some (0xFFFFFC7C, 768) := by decide

theorem test_wrAmp_target_only :
    (nextOf (exec (.wrAmp .A) (args 999 0 0))).map (fun t => (t.chA.ampTgt, t.chA.ampCur, t.result)) =
      some (19980, 0, .ok) := by decide

theorem test_wrAmp_clamps :
    (nextOf (exec (.wrAmp .B) { State.reset with arg0 := 0x7FFFFFFF })).map (fun t => t.chB.ampTgt) = some 20000 ∧
    (nextOf (exec (.wrAmp .B) { State.reset with arg0 := 0x80000000 })).map (fun t => t.chB.ampTgt) = some 0 := by
  decide

theorem test_rdAmp :
    (nextOf (exec (.rdAmp .A) { State.reset with chA := { State.reset.chA with ampTgt := 20000, ampCur := 1 } })).map
      (fun t => (t.res0, t.res1)) = some (1, 20000) := by decide

/-! Harmonic bank: V6 -/

/-- Row 5: the claim takes the lowest empty slot, here a silenced one. -/
theorem test_wrHarm_claims_silenced :
    (nextOf (exec (.wrHarm .A) (withBankA [⟨3, 1000, 0, 0⟩, ⟨5, 0, 0, 0⟩] (args 2147483647 1 0)))).map
      (fun t => (t.chA.bank.take 3, t.countActive)) =
      some ([⟨3, 1000, 0, 0⟩, ⟨2147483647, 1, 0, 0⟩, ⟨0, 0, 0, 0⟩], 2) := by decide

/-- Rows 9 and 14: an update in place, with the budget full. -/
theorem test_wrHarm_updates_when_full :
    (nextOf (exec (.wrHarm .A) (withBankA fullBank (args 3 100 1000000000)))).map
      (fun t => (t.chA.bank.head?, t.countActive, t.result)) =
      some (some ⟨3, 100, 1000000000, 796⟩, 8, .ok) := by decide

/-- Row 7. -/
theorem test_rdHarm_lists :
    (nextOf (exec (.rdHarm .A) (withBankA [⟨3, 100, 3600, 0⟩] (args 0 0 0)))).map
      (fun t => (t.res0, t.res1, t.res2, t.res3, t.result)) = some (3, 100, 0x00000E10, 1, .ok) := by decide

/-- Row 19: the index is signed. -/
theorem test_rdHarm_negative_index :
    (nextOf (exec (.rdHarm .A) (withBankA [⟨3, 500, 0, 0⟩] (args (-1) 0 0)))).map
      (fun t => (t.res0, t.res1, t.res2, t.res3, t.result)) = some (0, 0, 0, 1, .notFound) := by decide

/-- Row 15. -/
theorem test_clrHarm :
    (nextOf (exec (.clrHarm .A) (withBankA fullBank State.reset))).map
      (fun t => (t.chA.bank, t.countActive, t.result)) = some (List.replicate 8 ⟨0, 0, 0, 0⟩, 0, .ok) := by decide

/-! TICK and EDGE: V7 and V8 -/

/-- The fourth mixer row of V7, as one tick. -/
theorem test_tick_sample :
    (nextOf (exec .tick (withBankA [⟨3, 1000, 900, 256⟩]
      { State.reset with chA := { State.reset.chA with acc := 600, ampTgt := 20000, ampCur := 20000 } }))).map
      (fun t => (t.chA.out, t.chA.acc, t.dacStb, t.elapsed)) = some (68, 603, true, 1) := by decide +kernel

/-- V8 row 10: the resync of the 600th tick replaces the advanced accumulators. -/
theorem test_tick_resync :
    (nextOf (exec .tick { State.reset with
      elapsed := 199
      chA := { State.reset.chA with acc := 173 }
      chB := { State.reset.chB with acc := 893, freq := 1000000, step := 51, off := 5 } })).map
      (fun t => (t.level, t.elapsed, t.chA.acc, t.chB.acc)) = some (true, 0, 0, 5) := by decide +kernel

/-- V8 row 8. -/
theorem test_edge :
    (nextOf (exec .edge { State.reset with
      elapsed := 17
      chA := { State.reset.chA with acc := 51 }
      chB := { State.reset.chB with phase := 900, off := 256 } })).map
      (fun t => (t.level, t.elapsed, t.chA.acc, t.chB.acc)) = some (true, 0, 0, 256) := by decide

/-! The step -/

/-- A CMD write of WR_FREQ B placed as the next cycle runs as the first event after reset. -/
theorem test_withFetchWord :
    (nextOf (step ({ State.reset with arg0 := 0x000F4240 }.withFetchWord 32 0x00000011))).map
      (fun t => (t.chB.freq, t.chB.step, t.result, t.level, t.inputs)) =
      some (1000000, 51, .ok, false, []) := by decide

/-- V9: a read of OUTS in the cycle of a TICK returns that tick's output; the EDGE of the cycle comes last. The tick
ramps 19999 to 20000 and samples `wsample(256) = 255`; EDGE then loads OFF = 0. -/
theorem test_cycle_order :
    (nextOf (step { State.reset with
      edgePrev := false
      chA := { State.reset.chA with acc := 256, ampTgt := 20000, ampCur := 19999 }
      inputs := [{ PortsIn.memRead true 0x24 with tickIn := true }] })).map
      (fun t => (t.busRdata, t.chA.acc, t.level, t.elapsed, t.dacStb)) =
      some (some 0x00007FFF, 0, true, 0, true) := by decide +kernel

/-- V4: a write to STATUS is ignored, and the reserved offset 0x28 reads 0. -/
theorem test_ignored_write :
    (nextOf (step (placed (.memWrite false 0x10 0xFFFFFFFF)))).map (fun t => (t.result, t.statusWord)) =
      some (.ok, 0) ∧
    (nextOf (step (placed (.memRead false 0x28)))).map (fun t => t.busRdata) = some (some 0) := by decide

/-- 44_sync_controller.md R174: EDGE_PREV is 1 after reset, so a SYNC_IN high from reset makes no edge. -/
theorem test_no_edge_from_reset :
    (nextOf (step (placed (.idle true)))).map (fun t => (t.level, t.edgePrev)) = some (false, true) := by decide

/-- V10: a CMD write in a reset cycle is not executed. -/
theorem test_reset_cycle :
    (nextOf (step { placed { PortsIn.memWrite false 0x0C 0x00000000 with rst := true } with level := true })).map
      (fun t => (t.result, t.level)) = some (.ok, false) := by decide

/-- 95_test_vectors.md P1, line 6. -/
theorem test_assembly_wrHarm :
    (AsmLine.wrHarmNoPhase .A 3 333).expand.map (fun p => (p.busWe, p.busAddr, p.busWdata)) =
      [(true, 0x00, 3), (true, 0x04, 0x14D), (true, 0x08, 0), (true, 0x0C, 7)] := by decide

/-- S6: `wfa1000` and `wpa-90`; and `rh`, one read past the last active slot. -/
theorem test_text_commands :
    (TextCommand.wf .A ⟨1000, 1⟩).lines State.reset = [.wrFreq .A 1000000] ∧
    (TextCommand.wp .A ⟨-90, 1⟩).lines State.reset = [.wrPhase .A (-900)] ∧
    (TextCommand.rh .A).lines (withBankA [⟨3, 100, 0, 0⟩] State.reset) = [.rdHarm .A 0, .rdHarm .A 1] := by decide

/-- 20_memory.md R61: the window is the 64 bytes at BASE. -/
theorem test_windowOffset :
    windowOffset { Config.reference with base := 0x1000 } 0x100C = some 0x0C ∧
    windowOffset { Config.reference with base := 0x1000 } 0x1040 = none ∧
    windowOffset { Config.reference with base := 0x1000 } 0xFFF = none := by decide

/-! Witnesses -/

theorem witness_DecodeIffEncode : (Instr.wrFreq .A).isCommand = true ∧ (Instr.clrHarm .B).isCommand = true := by
  decide

theorem witness_DecodeFollowsOpcodeTable :
    (⟨"CLR_HARM", 0x00000009, 0xFFFFFFEF, .clrHarm⟩ : OpcodeRow) ∈ opcodeTable := by simp [opcodeTable]

theorem witness_CmdWriteRunsDecodedCommand :
    (rsvField 0x11 = 0 ∧ (opField 0x11, Instr.wrFreq (chField 0x11)) = ((0x1 : BitVec 4), Instr.wrFreq .B)) ∧
    (rsvField 0x19 = 0 ∧ (opField 0x19, Instr.clrHarm (chField 0x19)) = ((0x9 : BitVec 4), Instr.clrHarm .B)) ∧
    rsvField 0x27 ≠ 0 ∧ opField 0x10 = 0 ∧ 0xA ≤ (opField 0x0A).toNat ∧ 0xA ≤ (opField 0x0F).toNat := by decide

/-- Each clause: a command, an ILLEGAL word by each of its grounds, ARG0 to ARG2, and the first and last offsets from
0x10 up. -/
theorem witness_StepAppliesHostWrite :
    (∀ p ∈ [PortsIn.memWrite false 0x0C 0x19, .memWrite false 0x0C 0x27, .memWrite false 0x00 7,
        .memWrite false 0x04 7, .memWrite false 0x08 7, .memWrite false 0x10 7, .memWrite false 0x3C 7],
      (placed p).cfg.wellFormed = true ∧ (placed p).inputs = p :: [] ∧ p.rst = false ∧ p.tickIn = false ∧
      ¬(p.syncIn = true ∧ (placed p).edgePrev = false) ∧ p.busWe = true ∧ p.busRe = false ∧ p.busBe = 0b1111) ∧
    decode 0x19 = .ok (.clrHarm .B) ∧
    (rsvField 0x27 ≠ 0 ∧ opField 0x10 = 0 ∧ 0xA ≤ (opField 0x0A).toNat ∧ 0xA ≤ (opField 0x0F).toNat) ∧
    (0x10 ≤ (0x10 : BitVec 6).toNat ∧ (0x10 : BitVec 6).toNat % 4 = 0) ∧
    (0x10 ≤ (0x3C : BitVec 6).toNat ∧ (0x3C : BitVec 6).toNat % 4 = 0) := by decide

theorem witness_StepRunsTickAndEdgeCycles :
    (let p : PortsIn := { PortsIn.idle true with tickIn := true }
     let s := placed p
     s.cfg.wellFormed = true ∧ s.inputs = p :: [] ∧ p.rst = false ∧ p.busWe = false ∧ p.busRe = false ∧
     p.tickIn = true ∧ ¬(p.syncIn = true ∧ s.edgePrev = false)) ∧
    (let p := PortsIn.idle true
     let s : State := { placed p with edgePrev := false }
     s.cfg.wellFormed = true ∧ s.inputs = p :: [] ∧ p.rst = false ∧ p.busWe = false ∧ p.busRe = false ∧
     p.tickIn = false ∧ p.syncIn = true ∧ s.edgePrev = false) := by decide

/-- Cycles with a tick, an edge and no access, a read, and a write of each kind. -/
theorem witness_CycleAppliesTickThenHostThenEdge :
    (∀ q ∈ [PortsIn.idle true, .memRead true 0x24, .memWrite true 0x00 7, .memWrite true 0x04 7,
        .memWrite true 0x08 7, .memWrite true 0x0C 0x05, .memWrite true 0x0C 0x27, .memWrite true 0x3C 7],
      let p : PortsIn := { q with tickIn := true }
      let s : State := { placed p with edgePrev := false }
      s.cfg.wellFormed = true ∧ s.inputs = p :: [] ∧ p.rst = false) ∧
    ((PortsIn.idle true).busWe = false ∧ (PortsIn.idle true).busRe = false) ∧
    ((PortsIn.memRead true 0x24).busWe = false ∧ (PortsIn.memRead true 0x24).busRe = true ∧
      (PortsIn.memRead true 0x24).busAddr.toNat % 4 = 0 ∧ (PortsIn.memRead true 0x24).busBe = 0b1111) ∧
    ((PortsIn.memWrite true 0x3C 7).busWe = true ∧ (PortsIn.memWrite true 0x3C 7).busRe = false ∧
      (PortsIn.memWrite true 0x3C 7).busBe = 0b1111 ∧ 0x10 ≤ (PortsIn.memWrite true 0x3C 7).busAddr.toNat ∧
      (PortsIn.memWrite true 0x3C 7).busAddr.toNat % 4 = 0) ∧
    decode 0x05 = .ok (.wrAmp .A) ∧ rsvField 0x27 ≠ 0 := by decide

theorem witness_ResetCycleRestoresResetState :
    let p : PortsIn := { PortsIn.idle true with rst := true, tickIn := true }
    (placed p).cfg.wellFormed = true ∧ (placed p).inputs = p :: [] ∧ p.rst = true := by decide

theorem witness_HostReadDataAfterTick :
    let p : PortsIn := { PortsIn.memRead true 0x24 with tickIn := true }
    let s : State := { placed p with edgePrev := false }
    s.cfg.wellFormed = true ∧ s.inputs = p :: [] ∧ p.rst = false ∧ p.busWe = false ∧ p.busRe = true ∧
    p.busAddr.toNat % 4 = 0 ∧ p.busBe = 0b1111 := by decide

theorem witness_ReservedAndReadOnlyAccesses :
    0x28 ≤ (0x28 : BitVec 6).toNat ∧ 0x28 ≤ (0x3F : BitVec 6).toNat ∧ 0x10 ≤ (0x10 : BitVec 6).toNat := by decide

theorem witness_ByteLanesAreLittleEndian :
    (0x00 : BitVec 6).toNat % 4 = 0 ∧ (0x3C : BitVec 6).toNat % 4 = 0 := by decide

theorem witness_UndefinedAccessIsRefused :
    (let p := PortsIn.memRead false 0x25
     (placed p).cfg.wellFormed = true ∧ (placed p).inputs = p :: [] ∧ p.rst = false ∧ p.busWe ≠ p.busRe ∧
     p.busAddr.toNat % 4 ≠ 0) ∧
    (let p : PortsIn := { PortsIn.memWrite false 0x0C 0x00000001 with busBe := 0b0001 }
     (placed p).cfg.wellFormed = true ∧ (placed p).inputs = p :: [] ∧ p.rst = false ∧ p.busWe ≠ p.busRe ∧
     p.busBe ≠ 0b1111) := by decide

theorem witness_IdleCycleHoldsState :
    let p := PortsIn.idle true
    let s := placed p
    s.cfg.wellFormed = true ∧ s.inputs = p :: [] ∧ p.rst = false ∧ p.tickIn = false ∧ p.busWe = false ∧
    p.busRe = false ∧ ¬(p.syncIn = true ∧ s.edgePrev = false) := by decide

theorem witness_EdgePrevSamplesSyncIn :
    (∃ t, step (placed (.idle false)) = .next t ∧ (nextPorts (placed (.idle false))).rst = false) ∧
    (∃ t, step (placed { PortsIn.idle false with rst := true }) = .next t ∧
      (nextPorts (placed { PortsIn.idle false with rst := true })).rst = true) :=
  ⟨⟨_, rfl, rfl⟩, ⟨_, rfl, rfl⟩⟩

theorem witness_EdgeWinsItsCycle :
    let s : State := { placed { PortsIn.idle true with tickIn := true } with edgePrev := false }
    (nextPorts s).rst = false ∧ (nextPorts s).syncIn = true ∧ s.edgePrev = false ∧ ∃ t, step s = .next t :=
  ⟨rfl, rfl, rfl, _, rfl⟩

theorem witness_WrFreqSetsOrRejects :
    (((args 1000 0 0).cfg.minFreq : Int) ≤ (args 1000 0 0).arg0.toInt ∧
      (args 1000 0 0).arg0.toInt ≤ (args 1000 0 0).cfg.maxFreq) ∧
    (((args 10000000 0 0).cfg.minFreq : Int) ≤ (args 10000000 0 0).arg0.toInt ∧
      (args 10000000 0 0).arg0.toInt ≤ (args 10000000 0 0).cfg.maxFreq) ∧
    (args 999 0 0).arg0.toInt < (args 999 0 0).cfg.minFreq ∧
    ((args 10000001 0 0).cfg.maxFreq : Int) < (args 10000001 0 0).arg0.toInt := by decide

theorem witness_WrHarmRejectsBadOperands :
    (args 2 100 0).arg0.toInt < 3 ∧ (args 4 100 0).arg0.toInt % 2 = 0 ∧ (args 3 (-1) 0).arg1.toInt < 0 ∧
    1000 < (args 3 1001 0).arg1.toInt := by decide

theorem witness_WrHarmUpdatesInPlace :
    let s := withBankA [⟨5, 0, 0, 0⟩, ⟨3, 100, 0, 0⟩] (args 3 1000 0)
    3 ≤ s.arg0.toInt ∧ s.arg0.toInt % 2 = 1 ∧ 0 ≤ s.arg1.toInt ∧ s.arg1.toInt ≤ 1000 ∧
    (s.chan .A).bank = [⟨5, 0, 0, 0⟩] ++ ⟨3, 100, 0, 0⟩ :: List.replicate 6 Slot.cleared ∧
    (∀ x ∈ [(⟨5, 0, 0, 0⟩ : Slot)], (x.order : Int) ≠ s.arg0.toInt) ∧
    (((⟨3, 100, 0, 0⟩ : Slot).order : Nat) : Int) = s.arg0.toInt := by decide

theorem witness_WrHarmClaimsLowestEmptySlot :
    let s := withBankA [⟨3, 100, 0, 0⟩, ⟨5, 0, 0, 0⟩] (args 7 0 0)
    3 ≤ s.arg0.toInt ∧ s.arg0.toInt % 2 = 1 ∧ 0 ≤ s.arg1.toInt ∧ s.arg1.toInt ≤ 1000 ∧
    (∀ x ∈ (s.chan .A).bank, (x.order : Int) ≠ s.arg0.toInt) ∧
    (s.chA.bank.filter Slot.active).length + (s.chB.bank.filter Slot.active).length < s.cfg.hcap ∧
    (s.chan .A).bank = [⟨3, 100, 0, 0⟩] ++ ⟨5, 0, 0, 0⟩ :: List.replicate 6 Slot.cleared ∧
    (∀ x ∈ [(⟨3, 100, 0, 0⟩ : Slot)], x.order ≠ 0 ∧ x.str ≠ 0) ∧ (⟨5, 0, 0, 0⟩ : Slot).str = 0 := by decide

/-- The budget is full (V6 row 13), and, under a larger budget, the bank is. -/
theorem witness_WrHarmRejectsForCapacity :
    (let s := withBankA fullBank (args 19 0 0)
     3 ≤ s.arg0.toInt ∧ s.arg0.toInt % 2 = 1 ∧ 0 ≤ s.arg1.toInt ∧ s.arg1.toInt ≤ 1000 ∧
     (∀ x ∈ (s.chan .B).bank, (x.order : Int) ≠ s.arg0.toInt) ∧
     s.cfg.hcap ≤ (s.chA.bank.filter Slot.active).length + (s.chB.bank.filter Slot.active).length) ∧
    (let s := withBankA fullBank { args 19 1000 0 with cfg := { Config.reference with hcap := 9 } }
     3 ≤ s.arg0.toInt ∧ s.arg0.toInt % 2 = 1 ∧ 0 ≤ s.arg1.toInt ∧ s.arg1.toInt ≤ 1000 ∧
     (∀ x ∈ (s.chan .A).bank, (x.order : Int) ≠ s.arg0.toInt) ∧
     ∀ x ∈ (s.chan .A).bank, x.order ≠ 0 ∧ x.str ≠ 0) := by decide

theorem witness_RdHarmListsActiveSlots :
    (let s := withBankA fullBank (args 7 0 0)
     0 ≤ s.arg0.toInt ∧
     ((s.chan .A).bank.filter fun sl => decide (3 ≤ sl.order) && decide (0 < sl.str))[s.arg0.toInt.toNat]? =
       some ⟨17, 100, 0, 0⟩) ∧
    (args (-1) 0 0).arg0.toInt < 0 ∧
    (let s := withBankA fullBank (args 8 0 0)
     ((((s.chan .A).bank.filter fun sl => decide (3 ≤ sl.order) && decide (0 < sl.str)).length : Nat) : Int) ≤
       s.arg0.toInt) := by decide

theorem witness_AmplitudeMovesAtMostRampStep :
    (∃ t, exec .tick State.reset = .next t) ∧ ∃ t, exec (.wrAmp .A) State.reset = .next t :=
  ⟨⟨_, rfl⟩, ⟨_, rfl⟩⟩

theorem witness_MixOutIsExactClamp : 0 < (20000 : Nat) := by decide

theorem witness_AccumulatorCycleLength : (1023 : Nat) < 1024 := by decide

theorem witness_TickTimelineFromLowLevel :
    State.reset.level = false ∧ State.reset.elapsed = 0 ∧
    1 ≤ periodOf State.reset.cfg State.reset.chA.freq ∧
    ((State.reset.chan .A).acc < State.reset.cfg.n ∧ (State.reset.chan .A).off < State.reset.cfg.n) ∧
    ((State.reset.chan .B).acc < State.reset.cfg.n ∧ (State.reset.chan .B).off < State.reset.cfg.n) := by decide

/-- `k` at both ends of its range, 0 and the period 200. -/
theorem witness_EdgeHoldsSyncTimer :
    1 ≤ periodOf State.reset.cfg State.reset.chA.freq ∧
    0 ≤ periodOf State.reset.cfg State.reset.chA.freq ∧ 200 ≤ periodOf State.reset.cfg State.reset.chA.freq ∧
    (State.reset.chan .A).off < State.reset.cfg.n ∧ (State.reset.chan .B).off < State.reset.cfg.n := by decide

theorem witness_EdgeAfterRisingToggleChangesNothing :
    let s : State := { State.reset with elapsed := 199 }
    s.level = false ∧ ∃ t, exec .tick s = .next t ∧ t.level = true :=
  ⟨rfl, _, rfl, by decide⟩

theorem witness_ElapsedBelowPeriodAfterTickAndEdge :
    (Instr.tick = .tick ∨ Instr.tick = .edge) ∧ (Instr.edge = .tick ∨ Instr.edge = .edge) := by decide

theorem witness_StepKeepsInvariant :
    (placed { PortsIn.idle false with tickIn := true }).Inv ∧
    ∃ t, step (placed { PortsIn.idle false with tickIn := true }) = .next t :=
  ⟨⟨by decide, by constructor <;> decide, by constructor <;> decide, by decide⟩, _, rfl⟩

theorem witness_ResetSatisfiesInvariant : Config.reference.wellFormed = true := by decide

theorem witness_RegistersFitTheirWidths :
    (withBankA fullBank State.reset).Inv ∧
    stepOf (withBankA fullBank State.reset).cfg (withBankA fullBank State.reset).cfg.maxFreq < 2 ^ 32 ∧
    (withBankA fullBank State.reset).cfg.maxFreq * (withBankA fullBank State.reset).cfg.tsUs ≤ 10 ^ 9 ∧
    (⟨17, 100, 0, 0⟩ : Slot) ∈ ((withBankA fullBank State.reset).chan .A).bank := by
  refine ⟨⟨by decide, ?_, ?_, by decide⟩, by decide, by decide, by decide⟩ <;> constructor <;> decide

/-- A cycle without reset, and a reset cycle from a state of the invariant. -/
theorem witness_StepKeepsConfiguration :
    (∃ t, step (placed (.memWrite false 0x0C 0x00000019)) = .next t) ∧
    (nextPorts (placed (.memWrite false 0x0C 0x00000019))).rst = false ∧
    (∃ t, step (placed { PortsIn.idle false with rst := true }) = .next t) ∧
    (placed { PortsIn.idle false with rst := true }).Inv :=
  ⟨⟨_, rfl⟩, rfl, ⟨_, rfl⟩, ⟨by decide, by constructor <;> decide, by constructor <;> decide, by decide⟩⟩

theorem witness_CommandsKeepOtherChannel :
    (Instr.clrHarm .B).chan? = some .B ∧ ∃ t, exec (.clrHarm .B) State.reset = .next t :=
  ⟨rfl, _, rfl⟩

theorem witness_CommandsKeepRuntimeState :
    (Instr.wrFreq .A).isCommand = true ∧ ∃ t, exec (.wrFreq .A) (args 1000000 0 0) = .next t :=
  ⟨rfl, _, rfl⟩

theorem witness_OnlyReadCommandsWriteResults :
    (∃ t, step (placed (.memWrite false 0x0C 0x00000002)) = .next t) ∧
    (nextPorts (placed (.memWrite false 0x0C 0x00000002))).rst = false :=
  ⟨⟨_, rfl⟩, rfl⟩

/-- A claim at strength 1 and one at strength 0. -/
theorem witness_ClaimKeepsBudget :
    ((∀ x ∈ ((args 3 1 0).chan .A).bank, (x.order : Int) ≠ (args 3 1 0).arg0.toInt) ∧
      (nextOf (exec (.wrHarm .A) (args 3 1 0))).map (fun t => t.result) = some .ok) ∧
    ((∀ x ∈ ((args 3 0 0).chan .A).bank, (x.order : Int) ≠ (args 3 0 0).arg0.toInt) ∧
      (nextOf (exec (.wrHarm .A) (args 3 0 0))).map (fun t => t.result) = some .ok) := by decide

theorem witness_ReactivationIgnoresBudget :
    let s := withBankA [⟨3, 0, 0, 0⟩] (args 3 1 0)
    3 ≤ s.arg0.toInt ∧ s.arg0.toInt % 2 = 1 ∧ 0 < s.arg1.toInt ∧ s.arg1.toInt ≤ 1000 ∧
    (s.chan .A).bank = [] ++ ⟨3, 0, 0, 0⟩ :: List.replicate 7 Slot.cleared ∧
    (∀ x ∈ ([] : List Slot), (x.order : Int) ≠ s.arg0.toInt) ∧
    (((⟨3, 0, 0, 0⟩ : Slot).order : Nat) : Int) = s.arg0.toInt ∧ (⟨3, 0, 0, 0⟩ : Slot).str = 0 := by decide

theorem witness_ActiveCountBound : (withBankA fullBank State.reset).Inv := by
  refine ⟨by decide, ?_, ?_, by decide⟩ <;> constructor <;> decide

theorem witness_RomBracketsRoundedSine :
    (4 % 4 = 0 ∧ 4 ≤ 4 ∧ 4 ≤ 2 ^ 31 ∧ 0 < 4 / 4) ∧
    (2 ^ 31 % 4 = 0 ∧ 4 ≤ 2 ^ 31 ∧ 2 ^ 31 ≤ 2 ^ 31 ∧ 2 ^ 29 - 1 < 2 ^ 31 / 4) := by decide

theorem witness_RomIsRoundedSine :
    (4 % 4 = 0 ∧ 4 ≤ 4 ∧ 4 ≤ 2 ^ 31 ∧ 0 < 4 / 4) ∧
    (2 ^ 31 % 4 = 0 ∧ 4 ≤ 2 ^ 31 ∧ 2 ^ 31 ≤ 2 ^ 31 ∧ 2 ^ 29 - 1 < 2 ^ 31 / 4) := by decide

theorem witness_RomRangeAndShape :
    (4 % 4 = 0 ∧ 4 ≤ 4 ∧ 4 ≤ 2 ^ 31 ∧ 0 < 4 / 4) ∧
    (1024 % 4 = 0 ∧ 4 ≤ 1024 ∧ 1024 ≤ 2 ^ 31 ∧ 254 < 1024 / 4 ∧ 254 ≤ 255 ∧ 255 < 1024 / 4) := by decide

theorem witness_WsampleHalfCycleAntisymmetry :
    (4 % 4 = 0 ∧ 4 ≤ 4 ∧ 4 ≤ 2 ^ 31) ∧ (2 ^ 31 % 4 = 0 ∧ 4 ≤ 2 ^ 31 ∧ 2 ^ 31 ≤ 2 ^ 31) := by decide

theorem witness_ReferenceReconstructionWithinOneCount : 0 < 1024 ∧ 1023 < 1024 := by decide

theorem witness_RhaRoundsHalvesAwayFromZero : (0 : Nat) < 3600 ∧ (0 : Int) ≤ 1800 := by decide

theorem witness_HelpersRoundExactRationals :
    0 < Config.reference.n ∧ 0 < Config.reference.tsUs ∧ 1 ≤ Config.reference.minFreq := by decide

/-- A command line, a plain write, a plain read, a line of one tick, and the edge line. -/
theorem witness_AssemblyLinesRunTheirCommands :
    (let line := AsmLine.wrHarm .B 3 333 0
     let s : State := { State.reset with inputs := line.expand }
     s.cfg.wellFormed = true ∧ s.inputs = line.expand ++ [] ∧ line.command? = some (.wrHarm .B)) ∧
    (let line := AsmLine.memWrite 0x3C 7
     let s : State := { State.reset with inputs := line.expand }
     s.cfg.wellFormed = true ∧ s.inputs = line.expand ++ [] ∧ (0x3C : BitVec 6).toNat % 4 = 0 ∧
     line = .memWrite 0x3C 7) ∧
    (let line := AsmLine.ldr 0x24
     let s : State := { State.reset with inputs := line.expand }
     s.cfg.wellFormed = true ∧ s.inputs = line.expand ++ [] ∧ (0x24 : BitVec 6).toNat % 4 = 0 ∧
     line = .ldr 0x24) ∧
    (let line := AsmLine.tick 1
     let s : State := { State.reset with inputs := line.expand }
     s.cfg.wellFormed = true ∧ s.inputs = line.expand ++ [] ∧ 1 ≤ 1 ∧ line = .tick 1) ∧
    (let line := AsmLine.edge
     let s : State := { State.reset with inputs := line.expand }
     s.cfg.wellFormed = true ∧ s.inputs = line.expand ++ [] ∧ line = .edge) := by decide

theorem witness_ParameterRoundTrips :
    (State.reset.cfg.minFreq ≤ 1000 ∧ 1000 ≤ State.reset.cfg.maxFreq ∧ 1000 < 2 ^ 31) ∧
    (State.reset.cfg.minFreq ≤ 10000000 ∧ 10000000 ≤ State.reset.cfg.maxFreq ∧ 10000000 < 2 ^ 31) ∧
    ((-3600 : Int) ≤ -3600 ∧ (3600 : Int) ≤ 3600) ∧
    (1 ≤ 1000 ∧
      |((1 * (State.reset.cfg.ampFull / 1000) : Nat) : Int) - (State.reset.chan .A).ampCur| ≤
        (20 * State.reset.cfg.rampStep : Nat)) ∧
    (1000 ≤ 1000 ∧
      |((1000 * (State.reset.cfg.ampFull / 1000) : Nat) : Int) - (State.reset.chan .A).ampCur| ≤
        (20000 * State.reset.cfg.rampStep : Nat)) := by decide

/-- Two states that differ in what the host cannot see: ACC, ELAPSED, EDGE_PREV, a silenced slot. -/
theorem witness_HostViewDeterminesReads :
    let t : State := withBankA [⟨3, 0, 450, 128⟩]
      { State.reset with elapsed := 17, edgePrev := false, chB := { State.reset.chB with acc := 9 } }
    State.reset ≠ t ∧ State.reset.view = t.view ∧ isReadCommand (.rdHarm .A) = true := by decide

end Sys2Proof.Tests
end

/-! SUPPORT. `rha` and the helper functions of 00_scope.md R11 against the rationals they round. -/

namespace Sys2Proof.Machine

/-! `rha` -/

/-- Rounding a fraction by adding one half is a quotient of integers. -/
theorem floor_div_add_half (a : Int) {d : Nat} (hd : 0 < d) :
    ⌊(a : ℚ) / d + 1 / 2⌋ = (2 * a + d) / (2 * d) := by
  have hd' : (d : ℚ) ≠ 0 := by exact_mod_cast hd.ne'
  have hsum : (a : ℚ) / d + 1 / 2 = ((2 * a + d : Int) : ℚ) / ((2 * d : Nat) : ℚ) := by
    push_cast
    field_simp
  rw [hsum, Rat.floor_intCast_div_natCast]
  push_cast
  rfl

theorem rha_of_nonneg {a : Int} (ha : 0 ≤ a) (d : Nat) : rha a d = (2 * a + d) / (2 * d) := if_pos ha

theorem rha_of_neg {a : Int} (ha : a < 0) (d : Nat) : rha a d = -((2 * -a + d) / (2 * d)) := if_neg (not_le.mpr ha)

/-- The model's integer `rha` is R7's rounding of the exact quotient: the two have the same sign, and on each side of 0
the rounding is a floor. -/
theorem rha_eq_rhaQ (a : Int) {d : Nat} (hd : 0 < d) : rha a d = rhaQ ((a : ℚ) / d) := by
  have hd' : (0 : ℚ) < d := by exact_mod_cast hd
  unfold rhaQ
  rcases le_or_gt 0 a with ha | ha
  · have hx : (0 : ℚ) ≤ (a : ℚ) / d := div_nonneg (by exact_mod_cast ha) hd'.le
    rw [if_pos hx, rha_of_nonneg ha, floor_div_add_half a hd]
  · have hx : (a : ℚ) / d < 0 := div_neg_of_neg_of_pos (by exact_mod_cast ha) hd'
    rw [if_neg (not_le.mpr hx), rha_of_neg ha, ← neg_div, ← Int.cast_neg, floor_div_add_half (-a) hd]

/-! The helper functions of R11 as values of `rha` -/

/-- `step_of` rounds `N*F*TS_US` over `10^9`. -/
theorem stepOf_eq_rha (cfg : Config) (f : Nat) :
    (stepOf cfg f : Int) = rha (cfg.n * f * cfg.tsUs : Nat) (10 ^ 9) := by
  rw [rha_of_nonneg (Int.natCast_nonneg _), stepOf]
  push_cast
  ring_nf

/-- `period_of` rounds `10^9` over `2*F*TS_US`; its own quotient has the factor 2 cancelled. -/
theorem periodOf_eq_rha (cfg : Config) (f : Nat) :
    (periodOf cfg f : Int) = rha (10 ^ 9) (2 * f * cfg.tsUs) := by
  have hcancel : 2 * (10 ^ 9 + f * cfg.tsUs) / (2 * (2 * f * cfg.tsUs)) = periodOf cfg f :=
    Nat.mul_div_mul_left _ _ two_pos
  rw [rha_of_nonneg (by norm_num), ← hcancel]
  push_cast
  ring_nf

/-- `ticks_of` is the remainder of the rounded `P*N/3600`. -/
theorem ticksOf_eq_rha_emod {cfg : Config} (hn : 0 < cfg.n) (p : Int) :
    (ticksOf cfg p : Int) = rha (p * cfg.n) 3600 % cfg.n :=
  Int.toNat_of_nonneg (Int.emod_nonneg _ (by omega))

/-- Settles O56: `rhaQ` is R7's rounding, and `rha` is `rhaQ` of the quotient. -/
theorem rhaRoundsHalvesAwayFromZero : Obligations.RhaRoundsHalvesAwayFromZero := by
  intro a d hd
  exact ⟨rha_eq_rhaQ a hd, fun ha => rha_of_nonneg ha d⟩

/-- Settles O57: each helper is an `rha`, hence the rounding of its exact quotient. -/
theorem helpersRoundExactRationals : Obligations.HelpersRoundExactRationals := by
  intro cfg hn hts
  refine ⟨fun f => ?_, fun f hf => ?_, fun p => ?_⟩
  · rw [stepOf_eq_rha, rha_eq_rhaQ _ (by norm_num)]
    push_cast
    rfl
  · have hd : 0 < 2 * f * cfg.tsUs := by positivity
    rw [periodOf_eq_rha, rha_eq_rhaQ _ hd]
    push_cast
    rfl
  · rw [ticksOf_eq_rha_emod hn, rha_eq_rhaQ _ (by norm_num)]
    push_cast
    rfl

end Sys2Proof.Machine

/-! SUPPORT. The register widths of 10_state.md R23 to R38, from the ranges of the invariant. -/

namespace Sys2Proof.Machine

/-- The constraints of 00_scope.md R1, each as an inequality or a divisibility. -/
theorem wellFormed_iff (cfg : Config) : cfg.wellFormed = true ↔
    (cfg.n % 4 = 0 ∧ 4 ≤ cfg.n ∧ cfg.n ≤ 2 ^ 31) ∧ (1 ≤ cfg.tsUs ∧ cfg.tsUs ≤ 10 ^ 6) ∧
    (1 ≤ cfg.minFreq ∧ cfg.minFreq ≤ cfg.maxFreq ∧ cfg.maxFreq ≤ 2 ^ 31 - 1) ∧ 1 ≤ cfg.slots ∧
    (cfg.ampFull % 1000 = 0 ∧ 0 < cfg.ampFull ∧ cfg.ampFull ≤ 2 ^ 31 - 1000) ∧
    (1 ≤ cfg.rampStep ∧ cfg.rampStep ≤ cfg.ampFull) ∧
    (cfg.minFreq ≤ cfg.freqReset ∧ cfg.freqReset ≤ cfg.maxFreq) := by
  simp only [Config.wellFormed, Config.tableOk, Config.periodOk, Config.freqOk, Config.slotsOk, Config.ampOk,
    Config.rampOk, Config.resetOk, Bool.and_eq_true, beq_iff_eq, decide_eq_true_eq, and_assoc]

/-- The invariant of the state holds of each channel. -/
theorem State.Inv.chan {s : State} (h : s.Inv) (c : Chan) : Channel.Ok s.cfg (s.chan c) := by
  cases c with
  | A => exact h.chA
  | B => exact h.chB

/-! Bounds of the helper functions -/

theorem stepOf_mono (cfg : Config) {f g : Nat} (h : f ≤ g) : stepOf cfg f ≤ stepOf cfg g :=
  Nat.div_le_div_right (Nat.add_le_add_right (Nat.mul_le_mul_right _ (Nat.mul_le_mul_left _ h)) _)

/-- A frequency of at most one cycle a tick steps through at most the whole table. -/
theorem stepOf_le_n (cfg : Config) {f : Nat} (h : f * cfg.tsUs ≤ 10 ^ 9) : stepOf cfg f ≤ cfg.n := by
  have hmul : cfg.n * (f * cfg.tsUs) ≤ cfg.n * 10 ^ 9 := Nat.mul_le_mul_left _ h
  have hassoc : 2 * cfg.n * f * cfg.tsUs = 2 * (cfg.n * (f * cfg.tsUs)) := by ring
  unfold stepOf
  rw [hassoc]
  omega

/-- The half period of `10^9/(2*F*TS_US)` ticks is at most `10^9`, whatever the frequency. -/
theorem periodOf_le (cfg : Config) {f : Nat} (hf : 1 ≤ f) (hts : 1 ≤ cfg.tsUs) : periodOf cfg f ≤ 10 ^ 9 := by
  have hpos : 1 ≤ f * cfg.tsUs := Nat.mul_pos hf hts
  unfold periodOf
  rw [mul_assoc]
  generalize f * cfg.tsUs = x at hpos
  apply Nat.div_le_of_le_mul
  omega

/-! Widths -/

/-- A table index fits the `ceil(log2 N)` bits of ACC, OFF and HTK. -/
theorem lt_two_pow_clog {n i : Nat} (h : i < n) : i < 2 ^ Nat.clog 2 n :=
  h.trans_le (Nat.le_pow_clog one_lt_two n)

/-- ELAPSED fits its 32 bits: it is below the longest period (entry 15). -/
theorem State.Inv.elapsed_lt {s : State} (h : s.Inv) : s.elapsed < 2 ^ 32 := by
  obtain ⟨-, ⟨hts, -⟩, ⟨hmin, -⟩, -⟩ := (wellFormed_iff _).mp h.cfg
  have hperiod := periodOf_le s.cfg hmin hts
  have hlt := h.elapsed
  omega

/-- The registers of a slot fit their widths (R32 to R35). -/
theorem Slot.Ok.widths {cfg : Config} {sl : Slot} (hn : 0 < cfg.n) (h : Slot.Ok cfg sl) :
    sl.order < 2 ^ 32 ∧ sl.str < 2 ^ 32 ∧ (-2 ^ 31 ≤ sl.hph ∧ sl.hph < 2 ^ 31) ∧
    sl.htk < 2 ^ Nat.clog 2 cfg.n := by
  obtain ⟨-, -, horder, hstr, hhph, hhtk⟩ := h
  exact ⟨by omega, by omega, hhph, lt_two_pow_clog (hhtk ▸ ticksOf_lt hn sl.hph)⟩

/-- Settles O43: each register's range in the invariant lies within its width, STEP's by the monotony of `step_of`. -/
theorem registersFitTheirWidths : Obligations.RegistersFitTheirWidths := by
  intro s h
  refine ⟨h.elapsed_lt, fun c => ?_⟩
  obtain ⟨⟨-, hn4, -⟩, -, ⟨-, -, hmax⟩, -, ⟨-, -, hfull⟩, -⟩ := (wellFormed_iff _).mp h.cfg
  have hn : 0 < s.cfg.n := by omega
  obtain ⟨⟨-, hfreq⟩, hstep, hphase, hoff, ⟨htgt, -⟩, hcur, hacc, -, hbank, -⟩ := h.chan c
  refine ⟨by omega, by omega, by omega, by omega, lt_two_pow_clog hacc, ?off, ?step32, ?stepN,
    fun sl hsl => (hbank sl hsl).widths hn⟩
  case off => exact lt_two_pow_clog (hoff ▸ ticksOf_lt hn _)
  case step32 => exact fun hs => hstep ▸ (stepOf_mono s.cfg hfreq).trans_lt hs
  case stepN => exact fun hs => hstep ▸ stepOf_le_n s.cfg ((Nat.mul_le_mul_right _ hfreq).trans hs)

end Sys2Proof.Machine

/-! SUPPORT. What an event can do to the state: the inversion of `exec` (42_channel_commands.md, 41_harmonic_bank.md
R110 to R116, 43_synthesizer_tick.md R157, 44_sync_controller.md R172, R173). Every frame and every invariant of an event
is read off these lemmas. -/

namespace Sys2Proof.Machine

/-! What a command writes -/

/-- What a write command that succeeds can leave in the registers of its channel `ch`. -/
inductive ChannelWrite (cfg : Config) (ch : Channel) : Channel → Prop
  /-- `WR_FREQ` of a frequency in range (R130). -/
  | freq (f : Nat) (hf : cfg.minFreq ≤ f ∧ f ≤ cfg.maxFreq) :
    ChannelWrite cfg ch { ch with freq := f, step := stepOf cfg f }
  /-- `WR_PHASE` of a clamped phase (R133). -/
  | phase (p : Int) (hp : -3600 ≤ p ∧ p ≤ 3600) :
    ChannelWrite cfg ch { ch with phase := p, off := ticksOf cfg p }
  /-- `WR_AMP` of a clamped amplitude (R135). -/
  | ampTgt (a : Nat) (ha : a ≤ 1000) : ChannelWrite cfg ch { ch with ampTgt := a * (cfg.ampFull / 1000) }
  /-- `WR_HARM` on an order the bank holds (R114). -/
  | update (k str : Nat) (p : Int) (bank : List Slot) (hk : 3 ≤ k) (hnew : Slot.Ok cfg ⟨k, str, p, ticksOf cfg p⟩)
    (hbank : updateSlot cfg k str p ch.bank = some bank) : ChannelWrite cfg ch { ch with bank := bank }
  /-- `WR_HARM` on a new order (R113). -/
  | claim (k str : Nat) (p : Int) (bank : List Slot) (hnew : Slot.Ok cfg ⟨k, str, p, ticksOf cfg p⟩)
    (hfresh : updateSlot cfg k str p ch.bank = none)
    (hbank : claimSlot cfg k str p ch.bank = some bank) : ChannelWrite cfg ch { ch with bank := bank }
  /-- `CLR_HARM` (R115). -/
  | clear : ChannelWrite cfg ch { ch with bank := ch.bank.map fun _ => Slot.cleared }

/-- What a command `i` on channel `c` can leave of the state `s`. -/
inductive CommandEffect (i : Instr) (c : Chan) (s : State) : State → Prop
  /-- A rejection: only `STATUS.RESULT` is written (60_exceptions.md R200). -/
  | reject (code : Code) : CommandEffect i c s (s.setResult code)
  /-- A read command writes the RES registers (10_state.md R44). -/
  | read (hread : isReadCommand i = true) (r0 r1 r2 r3 : Word) (code : Code) :
    CommandEffect i c s ((s.writeRes r0 r1 r2 r3).setResult code)
  /-- A write command that succeeds writes its channel. -/
  | write (ch : Channel) (hch : ChannelWrite s.cfg (s.chan c) ch) :
    CommandEffect i c s ((s.setChan c ch).setResult .ok)

/-- The slot that valid operands of `WR_HARM` describe is one the invariant allows (R110, 92_eei_decisions.md D35). -/
theorem slotOk_of_harmOperandsOk {s : State} (h : harmOperandsOk s.a0 s.a1 = true) :
    3 ≤ s.a0.toNat ∧ Slot.Ok s.cfg ⟨s.a0.toNat, s.a1.toNat, s.a2, ticksOf s.cfg s.a2⟩ := by
  obtain ⟨hk, hodd, hstr, hstr'⟩ := harmOperandsOk_iff.mp h
  have hk' : s.a0 < 2 ^ 31 := BitVec.toInt_lt
  have hp : -2 ^ 31 ≤ s.a2 := BitVec.le_toInt _
  have hp' : s.a2 < 2 ^ 31 := BitVec.toInt_lt
  refine ⟨by omega, ?_, ?_, ?_, ?_, ⟨hp, hp'⟩, rfl⟩ <;> simp only <;> omega

theorem writeHarm_effect (c : Chan) {s : State} (h : harmOperandsOk s.a0 s.a1 = true) :
    CommandEffect (.wrHarm c) c s (writeHarm c s.a0.toNat s.a1.toNat s.a2 s) := by
  obtain ⟨hk, hnew⟩ := slotOk_of_harmOperandsOk h
  obtain ⟨bank, hu, hw⟩ | ⟨hu, -, bank, hcl, hw⟩ | ⟨-, -, hw⟩ :=
    writeHarm_cases c s.a0.toNat s.a1.toNat s.a2 s <;> rw [hw]
  · exact .write _ (.update _ _ _ bank hk hnew hu)
  · exact .write _ (.claim _ _ _ bank hnew hu hcl)
  · exact .reject _

theorem rdHarm_effect {c : Chan} {s t : State} (h : exec (.rdHarm c) s = .next t) :
    CommandEffect (.rdHarm c) c s t := by
  simp only [exec, execRdHarm] at h
  split at h <;> rw [Host.Outcome.next.injEq] at h <;> subst h <;> exact .read rfl ..

/-- Every command rejects, reports to RES0 to RES3, or writes its own channel. -/
theorem exec_command_effect {i : Instr} {c : Chan} {s t : State} (hc : i.chan? = some c)
    (h : exec i s = .next t) : CommandEffect i c s t := by
  cases i <;> simp only [Instr.chan?, Option.some.injEq, reduceCtorEq] at hc <;> subst hc
  case rdHarm => exact rdHarm_effect h
  all_goals simp only [exec, execWrFreq, execRdFreq, execWrPhase, execRdPhase, execWrAmp, execRdAmp, execWrHarm,
    execClrHarm] at h
  case wrFreq =>
    split at h <;> rw [Host.Outcome.next.injEq] at h <;> subst h
    · exact .reject _
    · exact .write _ (.freq _ (by omega))
  case wrHarm =>
    split at h <;> rw [Host.Outcome.next.injEq] at h <;> subst h
    · exact writeHarm_effect _ ‹_›
    · exact .reject _
  all_goals rw [Host.Outcome.next.injEq] at h; subst h
  case wrPhase => exact .write _ (.phase _ (clamp_mem (by norm_num)))
  case wrAmp =>
    have hclamp := clamp_mem (x := s.a0) (show (0 : Int) ≤ 1000 by norm_num)
    exact .write _ (.ampTgt _ (by omega))
  case clrHarm => exact .write _ .clear
  all_goals exact .read rfl ..

end Sys2Proof.Machine

/-! SUPPORT. What a command changes of its channel, and what it leaves unchanged (10_state.md R28 to R31, R41, R44). -/

namespace Sys2Proof.Machine

/-- An in-place update replaces the first slot of the order, which no slot before it has (R114). -/
theorem updateSlot_eq_some {cfg : Config} {k str : Nat} {p : Int} {bank bank' : List Slot}
    (h : updateSlot cfg k str p bank = some bank') :
    ∃ pre sl post, bank = pre ++ sl :: post ∧ bank' = pre ++ ⟨k, str, p, ticksOf cfg p⟩ :: post ∧
      sl.order = k ∧ ∀ x ∈ pre, x.order ≠ k := by
  obtain ⟨pre, sl, post, rfl, rfl, hsl, hpre⟩ := setFirst_eq_some h
  obtain rfl : sl.order = k := of_decide_eq_true hsl
  exact ⟨pre, sl, post, rfl, rfl, rfl, fun x hx => of_decide_eq_false (hpre x hx)⟩

/-- There is nothing to update exactly when the order is new to the bank (R110, step 3). -/
theorem updateSlot_eq_none {cfg : Config} {k str : Nat} {p : Int} {bank : List Slot} :
    updateSlot cfg k str p bank = none ↔ ∀ x ∈ bank, x.order ≠ k := by
  simp [updateSlot, setFirst_eq_none]

/-- A claim replaces the first empty slot (R113). -/
theorem claimSlot_eq_some {cfg : Config} {k str : Nat} {p : Int} {bank bank' : List Slot}
    (h : claimSlot cfg k str p bank = some bank') :
    ∃ pre sl post, bank = pre ++ sl :: post ∧ bank' = pre ++ ⟨k, str, p, ticksOf cfg p⟩ :: post ∧
      sl.empty = true ∧ ∀ x ∈ pre, x.empty = false :=
  setFirst_eq_some h

namespace ChannelWrite

variable {cfg : Config} {ch ch' : Channel}

/-- A write command never touches ACC, AMP_CUR and OUT (42_channel_commands.md, introduction). -/
theorem runtime_eq (h : ChannelWrite cfg ch ch') :
    ch'.acc = ch.acc ∧ ch'.ampCur = ch.ampCur ∧ ch'.out = ch.out := by
  cases h <;> exact ⟨rfl, rfl, rfl⟩

/-- A write command keeps the number of slots (R31). -/
theorem bank_length (h : ChannelWrite cfg ch ch') : ch'.bank.length = ch.bank.length := by
  cases h with
  | freq f _ => rfl
  | phase p _ => rfl
  | ampTgt a _ => rfl
  | update k str p bank _ _ hbank => exact setFirst_length hbank
  | claim k str p bank _ _ hbank => exact setFirst_length hbank
  | clear => exact List.length_map _

end ChannelWrite

namespace CommandEffect

variable {i : Instr} {c : Chan} {s t : State}

theorem chan_eq_or_write (h : CommandEffect i c s t) :
    t.chan c = s.chan c ∨ ChannelWrite s.cfg (s.chan c) (t.chan c) := by
  cases h with
  | reject code => exact .inl (setResult_chan ..)
  | read _ r0 r1 r2 r3 code => exact .inl (by simp)
  | write ch hch => exact .inr (by simpa using hch)

theorem chan_other (h : CommandEffect i c s t) : t.chan c.other = s.chan c.other := by
  cases h <;> simp

/-- LEVEL, ELAPSED, EDGE_PREV, DAC_STB, BUS_RDATA, the operands, the configuration and the cycles to come are no
command's to write. -/
theorem frame (h : CommandEffect i c s t) :
    t = { s with chA := t.chA, chB := t.chB, result := t.result,
                 res0 := t.res0, res1 := t.res1, res2 := t.res2, res3 := t.res3 } := by
  cases h with
  | reject code => rfl
  | read _ r0 r1 r2 r3 code => rfl
  | write ch _ => cases c <;> rfl

theorem res_eq (h : CommandEffect i c s t) (hi : isReadCommand i = false) :
    t.res0 = s.res0 ∧ t.res1 = s.res1 ∧ t.res2 = s.res2 ∧ t.res3 = s.res3 := by
  cases h with
  | reject code => exact ⟨rfl, rfl, rfl, rfl⟩
  | read hread r0 r1 r2 r3 code => simp [hi] at hread
  | write ch _ => simp

end CommandEffect

/-- The channel a command does not name is the other one. -/
theorem chan_eq_or_eq_other (c d : Chan) : d = c ∨ d = c.other := by
  cases c <;> cases d <;> decide

/-- On each channel a command leaves the registers alone or makes a write of that channel. -/
theorem CommandEffect.each_chan {i : Instr} {c : Chan} {s t : State} (h : CommandEffect i c s t) (d : Chan) :
    t.chan d = s.chan d ∨ ChannelWrite s.cfg (s.chan d) (t.chan d) := by
  obtain rfl | rfl := chan_eq_or_eq_other c d
  · exact h.chan_eq_or_write
  · exact .inl h.chan_other

/-- Settles O45: a command writes no channel but its own. -/
theorem commandsKeepOtherChannel : Obligations.CommandsKeepOtherChannel :=
  fun _ _ _ _ hc h => (exec_command_effect hc h).chan_other

/-- Settles O46: the channel registers by `runtime_eq`, the others by the frame of a command. -/
theorem commandsKeepRuntimeState : Obligations.CommandsKeepRuntimeState := by
  intro i s t hi h
  obtain ⟨c, hc⟩ := Option.isSome_iff_exists.mp hi
  have heff := exec_command_effect hc h
  refine ⟨fun d => ?_, ?_⟩
  · obtain hd | hd := heff.each_chan d
    · rw [hd]
      exact ⟨rfl, rfl, rfl⟩
    · exact hd.runtime_eq
  · rw [heff.frame]
    exact ⟨rfl, rfl, rfl, rfl, rfl, rfl, rfl, rfl⟩

end Sys2Proof.Machine

/-! SUPPORT. What TICK and EDGE change (43_synthesizer_tick.md R157, 44_sync_controller.md R172, R173). -/

namespace Sys2Proof.Machine

/-- The state between the samples of a TICK and its sync step (R157). -/
def State.sampled (s : State) : State :=
  { s with chA := tickChannel s.cfg s.chA, chB := tickChannel s.cfg s.chB, dacStb := true }

theorem exec_tick (s : State) : exec .tick s = .next (syncStep s.sampled) := rfl

theorem exec_edge (s : State) : exec .edge s = .next (State.resync { s with level := true, elapsed := 0 }) := rfl

theorem sampled_chan (s : State) (c : Chan) : s.sampled.chan c = tickChannel s.cfg (s.chan c) := by cases c <;> rfl

/-- The sync step writes the channels, LEVEL and ELAPSED only. -/
theorem syncStep_frame (s : State) :
    syncStep s = { s with chA := (syncStep s).chA, chB := (syncStep s).chB,
                          level := (syncStep s).level, elapsed := (syncStep s).elapsed } := by
  obtain ⟨-, h⟩ | ⟨-, -, h⟩ | ⟨-, -, h⟩ := syncStep_cases s
  · rw [h]
  · rw [h]
  · rw [h]
    rfl

/-- The sync step leaves a channel alone or resyncs it (R170). -/
theorem syncStep_chan (s : State) (c : Chan) :
    (syncStep s).chan c = s.chan c ∨ (syncStep s).chan c = (s.chan c).resync := by
  obtain ⟨-, h⟩ | ⟨-, -, h⟩ | ⟨-, -, h⟩ := syncStep_cases s
  · exact .inl (by rw [h]; cases c <;> rfl)
  · exact .inl (by rw [h]; cases c <;> rfl)
  · exact .inr (by rw [h]; cases c <;> rfl)

theorem syncStep_freq (s : State) : (syncStep s).chA.freq = s.chA.freq := by
  obtain h | h := syncStep_chan s .A <;> simpa using congrArg Channel.freq h

/-- The sync step counts up to a value below the period, or starts over (R172). -/
theorem syncStep_elapsed_lt (s : State) : (syncStep s).elapsed < max 1 (periodOf s.cfg s.chA.freq) := by
  obtain ⟨hlt, h⟩ | ⟨-, -, h⟩ | ⟨-, -, h⟩ := syncStep_cases s <;> rw [h]
  · exact lt_max_of_lt_right hlt
  · exact lt_max_of_lt_left one_pos
  · exact lt_max_of_lt_left one_pos

/-- One tick moves the amplitude by at most the ramp step (R150). -/
theorem abs_rampTo_sub_le (r tgt cur : Nat) : |(rampTo r tgt cur : Int) - cur| ≤ r := by
  rw [abs_le]
  obtain ⟨-, h⟩ | ⟨hdown, h⟩ | ⟨hup, hdown, h⟩ := rampTo_cases r tgt cur <;> rw [h] <;> omega

/-- Settles O40: TICK by the bound of the sync step, EDGE since it clears the count. -/
theorem elapsedBelowPeriodAfterTickAndEdge : Obligations.ElapsedBelowPeriodAfterTickAndEdge := by
  rintro s i (rfl | rfl)
  · refine ⟨_, exec_tick s, ?_⟩
    rw [syncStep_freq, syncStep_frame s.sampled]
    exact syncStep_elapsed_lt s.sampled
  · exact ⟨_, exec_edge s, lt_max_of_lt_left one_pos⟩

end Sys2Proof.Machine

/-! SUPPORT. Every instruction at once: a command's effect, TICK, or EDGE. -/

namespace Sys2Proof.Machine

/-- What an instruction of the opcode table can do. -/
theorem exec_cases {i : Instr} {s t : State} (h : exec i s = .next t) :
    (∃ c, i.chan? = some c ∧ CommandEffect i c s t) ∨ (i = .tick ∧ t = syncStep s.sampled) ∨
    (i = .edge ∧ t = State.resync { s with level := true, elapsed := 0 }) := by
  cases hc : i.chan? with
  | some c => exact .inl ⟨c, rfl, exec_command_effect hc h⟩
  | none =>
    cases i <;> simp only [Instr.chan?, reduceCtorEq] at hc
    case tick => exact .inr (.inl ⟨rfl, (Host.Outcome.next.inj h).symm⟩)
    case edge => exact .inr (.inr ⟨rfl, (Host.Outcome.next.inj h).symm⟩)

/-- What an instruction can leave of a channel's registers: nothing changed, a command's write, or the channel as TICK
advanced it, with or without a resync; only TICK advances it. -/
theorem exec_chan_cases {i : Instr} {s t : State} (h : exec i s = .next t) (c : Chan) :
    t.chan c = s.chan c ∨ ChannelWrite s.cfg (s.chan c) (t.chan c) ∨ t.chan c = (s.chan c).resync ∨
    (i = .tick ∧ (t.chan c = tickChannel s.cfg (s.chan c) ∨ t.chan c = (tickChannel s.cfg (s.chan c)).resync)) := by
  obtain ⟨d, -, heff⟩ | ⟨hi, rfl⟩ | ⟨-, rfl⟩ := exec_cases h
  · obtain hc | hc := heff.each_chan c
    · exact .inl hc
    · exact .inr (.inl hc)
  · rw [← sampled_chan]
    exact .inr (.inr (.inr ⟨hi, syncStep_chan s.sampled c⟩))
  · exact .inr (.inr (.inl (resync_chan ..)))

/-- No instruction changes the configuration or the cycles to come (10_state.md R47). -/
theorem exec_cfg_inputs {i : Instr} {s t : State} (h : exec i s = .next t) :
    t.cfg = s.cfg ∧ t.inputs = s.inputs := by
  obtain ⟨d, -, heff⟩ | ⟨-, rfl⟩ | ⟨-, rfl⟩ := exec_cases h
  · rw [heff.frame]
    exact ⟨rfl, rfl⟩
  · rw [syncStep_frame]
    exact ⟨rfl, rfl⟩
  · exact ⟨rfl, rfl⟩

/-- No instruction changes the number of slots (10_state.md R31). -/
theorem exec_bank_length {i : Instr} {s t : State} (h : exec i s = .next t) (c : Chan) :
    (t.chan c).bank.length = (s.chan c).bank.length := by
  obtain hc | hc | hc | ⟨-, hc | hc⟩ := exec_chan_cases h c
  case inr.inl => exact hc.bank_length
  all_goals simp [hc]

/-- Only a read command changes RES0 to RES3 (10_state.md R44). -/
theorem exec_res_eq {i : Instr} {s t : State} (h : exec i s = .next t) (hi : isReadCommand i = false) :
    t.res0 = s.res0 ∧ t.res1 = s.res1 ∧ t.res2 = s.res2 ∧ t.res3 = s.res3 := by
  obtain ⟨d, -, heff⟩ | ⟨-, rfl⟩ | ⟨-, rfl⟩ := exec_cases h
  · exact heff.res_eq hi
  · rw [syncStep_frame]
    exact ⟨rfl, rfl, rfl, rfl⟩
  · exact ⟨rfl, rfl, rfl, rfl⟩

/-- An instruction keeps a channel's AMP_CUR, or is a TICK and takes one ramp step. -/
theorem exec_ampCur {i : Instr} {s t : State} (h : exec i s = .next t) (c : Chan) :
    (t.chan c).ampCur = (s.chan c).ampCur ∨
    (i = .tick ∧ (t.chan c).ampCur = rampTo s.cfg.rampStep (s.chan c).ampTgt (s.chan c).ampCur) := by
  obtain hc | hc | hc | ⟨hi, hc | hc⟩ := exec_chan_cases h c
  · exact .inl (by rw [hc])
  · exact .inl hc.runtime_eq.2.1
  · exact .inl (by rw [hc]; rfl)
  · exact .inr ⟨hi, by rw [hc]; rfl⟩
  · exact .inr ⟨hi, by rw [hc]; rfl⟩

/-- Settles O32: only TICK moves AMP_CUR, and its ramp moves it by at most RAMP_STEP. -/
theorem amplitudeMovesAtMostRampStep : Obligations.AmplitudeMovesAtMostRampStep := by
  intro i s t h c
  obtain hamp | ⟨rfl, hamp⟩ := exec_ampCur h c
  · exact ⟨by simp [hamp], fun _ => hamp⟩
  · exact ⟨by rw [hamp]; exact abs_rampTo_sub_le .., fun hne => absurd rfl hne⟩

end Sys2Proof.Machine

/-! SUPPORT. What a whole clock cycle keeps (20_memory.md R70): a property that no register of the ports bears on and
that every event of the cycle keeps. -/

namespace Sys2Proof.Machine

/-- `t` differs from `s` at most in what a cycle writes outside its events: EDGE_PREV, DAC_STB, BUS_RDATA, the operands
and `STATUS.RESULT`. -/
structure PortFrame (s t : State) : Prop where
  cfg : t.cfg = s.cfg
  inputs : t.inputs = s.inputs
  chan : ∀ c, t.chan c = s.chan c
  level : t.level = s.level
  elapsed : t.elapsed = s.elapsed
  res : t.res0 = s.res0 ∧ t.res1 = s.res1 ∧ t.res2 = s.res2 ∧ t.res3 = s.res3

/-- The events a cycle with ports `p` may take (R70): TICK, the command of a CMD write, and EDGE. -/
def PortsIn.MayRun (p : PortsIn) (i : Instr) : Prop :=
  i = .tick ∨ i = .edge ∨ (p.busWe = true ∧ hostReg p.busAddr = .cmd ∧ decode p.busWdata = .ok i)

theorem portFrame_of_update (s : State) (ep stb : Bool) (a0 a1 a2 : Word) (code : Code) (rd : Option Word) :
    PortFrame s { s with edgePrev := ep, dacStb := stb, arg0 := a0, arg1 := a1, arg2 := a2, result := code,
                         busRdata := rd } :=
  ⟨rfl, rfl, fun c => by cases c <;> rfl, rfl, rfl, rfl, rfl, rfl, rfl⟩

theorem PortFrame.refl (s : State) : PortFrame s s := portFrame_of_update s ..

/-- A host access runs the command of a CMD write, or touches the port registers only. -/
theorem hostAccess_portFrame_or_exec {p : PortsIn} {s t : State} (h : hostAccess p s = .next t) :
    PortFrame s t ∨ ∃ i, p.MayRun i ∧ exec i s = .next t := by
  obtain ⟨-, -, rfl⟩ | ⟨hwe, -, -, hw⟩ | ⟨-, -, -, rfl⟩ := hostAccess_next h
  · exact .inl (.refl t)
  · obtain rfl | rfl | rfl | ⟨hreg, i, hdec, hexec⟩ | rfl | rfl := hostWrite_next hw
    case inr.inr.inr.inl => exact .inr ⟨i, .inr (.inr ⟨hwe, hreg, hdec⟩), hexec⟩
    all_goals exact .inl (portFrame_of_update _ ..)
  · exact .inl (portFrame_of_update s ..)

/-- What the port registers do not bear on and every event of the cycle keeps, a cycle without reset keeps. -/
theorem step_preserves {P : State → Prop} {s t : State} (h : step s = .next t) (hrst : (nextPorts s).rst = false)
    (hframe : ∀ u v, PortFrame u v → P u → P v)
    (hexec : ∀ i u v, (nextPorts s).MayRun i → exec i u = .next v → P u → P v)
    (hs : P { s with inputs := s.inputs.tail }) : P t := by
  obtain ⟨hr, -⟩ | ⟨-, u, v, hu, hv, ht⟩ := runCycle_next (step_next h).2
  · simp [hrst] at hr
  have hopen : P (openCycle (nextPorts s) { s with inputs := s.inputs.tail }) :=
    hframe _ _ (portFrame_of_update ..) hs
  have hPu : P u := by
    unfold tickPhase at hu
    split at hu
    · exact hexec .tick _ _ (.inl rfl) hu hopen
    · exact Host.Outcome.next.inj hu ▸ hopen
  have hPv : P v := by
    obtain hf | ⟨i, hi, hx⟩ := hostAccess_portFrame_or_exec hv
    · exact hframe _ _ hf hPu
    · exact hexec i _ _ hi hx hPu
  unfold edgePhase at ht
  split at ht
  · exact hexec .edge _ _ (.inr (.inl rfl)) ht hPv
  · exact Host.Outcome.next.inj ht ▸ hPv

/-- A step whose cycle resets leaves the reset state (70_reset_and_hazards.md R233). -/
theorem step_of_rst {s t : State} (h : step s = .next t) (hrst : (nextPorts s).rst = true) :
    t = State.resetOf s.cfg s.inputs.tail := by
  obtain ⟨-, ht⟩ | ⟨hr, -⟩ := runCycle_next (step_next h).2
  · exact ht
  · simp [hrst] at hr

/-- Settles O47: RES0 to RES3 are kept by the cycle's ports and by every event but a read command. -/
theorem onlyReadCommandsWriteResults : Obligations.OnlyReadCommandsWriteResults := by
  intro s t h hrst
  by_cases hread : (nextPorts s).busWe = true ∧ hostReg (nextPorts s).busAddr = .cmd ∧
      ∃ i, decode (nextPorts s).busWdata = .ok i ∧ isReadCommand i = true
  · exact .inr hread
  left
  have hquiet : ∀ i, (nextPorts s).MayRun i → isReadCommand i = false := by
    rintro i (rfl | rfl | ⟨hwe, hreg, hdec⟩)
    · rfl
    · rfl
    · exact Bool.eq_false_iff.mpr fun hi => hread ⟨hwe, hreg, i, hdec, hi⟩
  refine step_preserves (P := fun u => u.res0 = s.res0 ∧ u.res1 = s.res1 ∧ u.res2 = s.res2 ∧ u.res3 = s.res3)
    h hrst (fun u v hf hu => ?_) (fun i u v hi hx hu => ?_) ⟨rfl, rfl, rfl, rfl⟩
  · obtain ⟨h0, h1, h2, h3⟩ := hf.res
    rwa [h0, h1, h2, h3]
  · obtain ⟨h0, h1, h2, h3⟩ := exec_res_eq hx (hquiet i hi)
    rwa [h0, h1, h2, h3]

end Sys2Proof.Machine

/-! SUPPORT. The reset state (10_state.md R48, 70_reset_and_hazards.md R230, R234). -/

namespace Sys2Proof.Machine

theorem resetOf_chan (cfg : Config) (ins : List PortsIn) (c : Chan) :
    (State.resetOf cfg ins).chan c = Channel.reset cfg := by cases c <;> rfl

/-- Settles O9: the channel values by `resetOf_chan`, every other register as the reset state lists it. -/
theorem resetLeavesStatedValues : Obligations.ResetLeavesStatedValues := by
  refine ⟨fun cfg ins c => ⟨resetOf_chan cfg ins c, rfl, rfl, rfl, rfl, rfl, rfl, rfl, rfl, rfl, rfl, rfl, rfl,
    ?status, ?outs, rfl⟩, fun c => ?_⟩
  case status => exact (by decide : (0#28 ++ BitVec.ofBool false) ++ Code.ok.bits = (0 : Word))
  case outs => exact (by decide : (0#16 ++ 127#8) ++ 127#8 = (0x00007F7F : Word))
  · rw [State.reset, resetOf_chan]
    decide

/-- A phase of 0 is no offset. -/
theorem ticksOf_zero (cfg : Config) : ticksOf cfg 0 = 0 := by
  simp [ticksOf, rha_of_nonneg]

/-- A cleared slot is one the invariant allows (R36). -/
theorem cleared_ok (cfg : Config) : Slot.Ok cfg Slot.cleared := by
  simp [Slot.Ok, Slot.cleared, ticksOf_zero]

/-- A bank of cleared slots has no order twice. -/
theorem distinctOrders_of_cleared {bank : List Slot} (h : ∀ sl ∈ bank, sl = Slot.cleared) :
    DistinctOrders bank := by
  refine List.pairwise_of_forall_mem_list fun a ha b _ h0 => absurd ?_ h0
  rw [h a ha]
  rfl

theorem Channel.reset_ok {cfg : Config} (h : cfg.wellFormed = true) : Channel.Ok cfg (Channel.reset cfg) := by
  obtain ⟨⟨-, hn, -⟩, -, -, -, -, -, hreset⟩ := (wellFormed_iff cfg).mp h
  have hbank : ∀ sl ∈ (Channel.reset cfg).bank, sl = Slot.cleared := fun _ => List.eq_of_mem_replicate
  exact {
    freq := hreset
    step := rfl
    phase := by simp [Channel.reset]
    off := (ticksOf_zero cfg).symm
    ampTgt := ⟨Nat.zero_le _, dvd_zero _⟩
    ampCur := Nat.zero_le _
    acc := by simp only [Channel.reset]; omega
    slots := List.length_replicate
    bank := fun sl hsl => hbank sl hsl ▸ cleared_ok cfg
    orders := distinctOrders_of_cleared hbank }

/-- The invariant holds of the state after reset at every legal configuration (R234). -/
theorem resetOf_inv {cfg : Config} (h : cfg.wellFormed = true) (ins : List PortsIn) : (State.resetOf cfg ins).Inv :=
  ⟨h, Channel.reset_ok h, Channel.reset_ok h, lt_max_of_lt_left one_pos⟩

end Sys2Proof.Machine

/-! SUPPORT. The number of slots and of active slots (10_state.md R31, R36). -/

namespace Sys2Proof.Machine

/-- Settles O44: each event and the ports keep the configuration and the lengths; after a reset a bank has SLOTS slots,
as the invariant says of it before. -/
theorem stepKeepsConfiguration : Obligations.StepKeepsConfiguration := by
  intro s t h
  cases hrst : (nextPorts s).rst with
  | true =>
    obtain rfl := step_of_rst h hrst
    refine ⟨rfl, rfl, by simp, fun hinv c => ?_⟩
    have hlen : ((State.resetOf s.cfg s.inputs.tail).chan c).bank.length = s.cfg.slots := by
      rw [resetOf_chan]
      exact List.length_replicate
    exact ⟨hlen.trans (hinv.chan c).slots.symm, hlen⟩
  | false =>
    have hkeep : t.cfg = s.cfg ∧ t.inputs = s.inputs.tail ∧
        ∀ c, (t.chan c).bank.length = (s.chan c).bank.length := by
      refine step_preserves (P := fun u => u.cfg = s.cfg ∧ u.inputs = s.inputs.tail ∧
        ∀ c, (u.chan c).bank.length = (s.chan c).bank.length) h hrst
        (fun u v hf hu => ?_) (fun i u v _ hx hu => ?_) ⟨rfl, rfl, fun c => by cases c <;> rfl⟩
      · simpa only [hf.cfg, hf.inputs, hf.chan] using hu
      · simpa only [exec_cfg_inputs hx, exec_bank_length hx] using hu
    obtain ⟨hcfg, hins, hlen⟩ := hkeep
    exact ⟨hcfg, hins, fun _ => hlen, fun hinv c => ⟨hlen c, by rw [hlen, hcfg]; exact (hinv.chan c).slots⟩⟩

/-- Settles O50: a count of the members of a bank is at most its length, which is SLOTS. -/
theorem activeCountBound : Obligations.ActiveCountBound := by
  intro s h
  have hbound : ∀ c : Chan, activeCount (s.chan c).bank ≤ s.cfg.slots :=
    fun c => List.countP_le_length.trans_eq (h.chan c).slots
  exact ⟨hbound, (Nat.add_le_add (hbound .A) (hbound .B)).trans_eq (two_mul _).symm⟩

end Sys2Proof.Machine

/-! SUPPORT. Every event keeps the invariant of a channel (10_state.md R23 to R36, R49). -/

namespace Sys2Proof.Machine

namespace Channel.Ok

variable {cfg : Config} {ch ch' : Channel}

theorem resync (hn : 0 < cfg.n) (h : Channel.Ok cfg ch) : Channel.Ok cfg ch.resync :=
  { h with acc := (h.off ▸ ticksOf_lt hn ch.phase : ch.off < cfg.n) }

/-- The ramp stays between the current amplitude and the target (R150), the accumulator in the table (R156). -/
theorem tick (hn : 0 < cfg.n) (h : Channel.Ok cfg ch) : Channel.Ok cfg (tickChannel cfg ch) := by
  have hramp : rampTo cfg.rampStep ch.ampTgt ch.ampCur ≤ cfg.ampFull := by
    have htgt := h.ampTgt.1
    have hcur := h.ampCur
    obtain ⟨hup, hr⟩ | ⟨-, hr⟩ | ⟨-, -, hr⟩ := rampTo_cases cfg.rampStep ch.ampTgt ch.ampCur <;> omega
  exact { h with ampCur := hramp, acc := advance_lt hn ch.step ch.acc }

/-- One slot may be replaced by any good slot whose order no other slot has. -/
theorem replaceSlot {pre post : List Slot} {sl sl' : Slot} (h : Channel.Ok cfg ch)
    (hbank : ch.bank = pre ++ sl :: post) (hsl : Slot.Ok cfg sl')
    (hfresh : ∀ x ∈ pre ++ post, x.order ≠ sl'.order) :
    Channel.Ok cfg { ch with bank := pre ++ sl' :: post } := by
  obtain ⟨hpre, hpost⟩ := List.forall_mem_append.mp hfresh
  have hslots := h.slots
  have hall := h.bank
  have horders := h.orders
  rw [hbank] at hslots hall horders
  refine { h with slots := by simpa using hslots, bank := fun x hx => ?bank, orders := ?orders }
  case bank =>
    obtain hx | rfl | hx : x ∈ pre ∨ x = sl' ∨ x ∈ post := by simpa using hx
    · exact hall x (by simp [hx])
    · exact hsl
    · exact hall x (by simp [hx])
  case orders =>
    obtain ⟨hdpre, hdpost, hcross⟩ := List.pairwise_append.mp horders
    refine List.pairwise_append.mpr ⟨hdpre, List.pairwise_cons.mpr
      ⟨fun x hx _ => (hpost x hx).symm, (List.pairwise_cons.mp hdpost).2⟩, fun a ha b hb ha0 => ?_⟩
    obtain rfl | hb := List.mem_cons.mp hb
    · exact hpre a ha
    · exact hcross a ha b (List.mem_cons_of_mem _ hb) ha0

/-- The slot of an order is the only one of it (R36), so an in-place update keeps the bank's invariant (R114). -/
theorem update {k str : Nat} {p : Int} {bank : List Slot} (h : Channel.Ok cfg ch) (hk : 3 ≤ k)
    (hnew : Slot.Ok cfg ⟨k, str, p, ticksOf cfg p⟩) (hu : updateSlot cfg k str p ch.bank = some bank) :
    Channel.Ok cfg { ch with bank := bank } := by
  obtain ⟨pre, sl, post, hbank, rfl, hsl, hpre⟩ := updateSlot_eq_some hu
  have hpost : ∀ x ∈ post, x.order ≠ k := by
    have horders := h.orders
    rw [hbank] at horders
    have hlater := (List.pairwise_cons.mp (List.pairwise_append.mp horders).2.1).1
    exact fun x hx => hsl ▸ (hlater x hx (by omega)).symm
  exact h.replaceSlot hbank hnew (List.forall_mem_append.mpr ⟨hpre, hpost⟩)

/-- A claim brings an order that no slot of the bank has (R110, R113). -/
theorem claim {k str : Nat} {p : Int} {bank : List Slot} (h : Channel.Ok cfg ch)
    (hnew : Slot.Ok cfg ⟨k, str, p, ticksOf cfg p⟩) (hfresh : updateSlot cfg k str p ch.bank = none)
    (hcl : claimSlot cfg k str p ch.bank = some bank) : Channel.Ok cfg { ch with bank := bank } := by
  obtain ⟨pre, sl, post, hbank, rfl, -, -⟩ := claimSlot_eq_some hcl
  refine h.replaceSlot hbank hnew fun x hx => updateSlot_eq_none.mp hfresh x ?_
  rw [hbank]
  exact List.mem_append.mpr ((List.mem_append.mp hx).imp_right (List.mem_cons_of_mem _))

theorem clear (h : Channel.Ok cfg ch) : Channel.Ok cfg { ch with bank := ch.bank.map fun _ => Slot.cleared } := by
  have hall : ∀ sl ∈ ch.bank.map fun _ => Slot.cleared, sl = Slot.cleared := by simp
  exact { h with
    slots := (List.length_map _).trans h.slots
    bank := fun sl hsl => hall sl hsl ▸ cleared_ok cfg
    orders := distinctOrders_of_cleared hall }

/-- Every write command keeps the invariant of its channel. -/
theorem write (hampFull : cfg.ampFull % 1000 = 0) (h : Channel.Ok cfg ch) (hw : ChannelWrite cfg ch ch') :
    Channel.Ok cfg ch' := by
  cases hw with
  | freq f hf => exact { h with freq := hf, step := rfl }
  | phase p hp => exact { h with phase := hp, off := rfl }
  | ampTgt a ha =>
    have hle : a * (cfg.ampFull / 1000) ≤ 1000 * (cfg.ampFull / 1000) := Nat.mul_le_mul_right _ ha
    exact { h with ampTgt := ⟨by simp only; omega, Dvd.intro_left a rfl⟩ }
  | update k str p bank hk hnew hbank => exact h.update hk hnew hbank
  | claim k str p bank hnew hfresh hbank => exact h.claim hnew hfresh hbank
  | clear => exact h.clear

end Channel.Ok

end Sys2Proof.Machine

/-! SUPPORT. Every event and every clock cycle keeps the invariant of the state (10_state.md R49). -/

namespace Sys2Proof.Machine

/-- The invariant from its four parts, the channels' together. -/
theorem State.Inv.of_chan {s : State} (hcfg : s.cfg.wellFormed = true) (hchan : ∀ c, Channel.Ok s.cfg (s.chan c))
    (helapsed : s.elapsed < max 1 (periodOf s.cfg s.cfg.minFreq)) : s.Inv :=
  ⟨hcfg, hchan .A, hchan .B, helapsed⟩

/-- The half period as a rounding of `10^9/(F*TS_US)` by 2, in which F stands once. -/
theorem periodOf_eq_half (cfg : Config) {f : Nat} (h : 0 < f * cfg.tsUs) :
    periodOf cfg f = (10 ^ 9 / (f * cfg.tsUs) + 1) / 2 := by
  rw [periodOf, mul_assoc, mul_comm 2, ← Nat.div_div_eq_div_mul, Nat.add_div_right _ h]

/-- The lower the frequency, the longer the half period. -/
theorem periodOf_anti {cfg : Config} {f g : Nat} (hf : 1 ≤ f) (hts : 1 ≤ cfg.tsUs) (h : f ≤ g) :
    periodOf cfg g ≤ periodOf cfg f := by
  have hpos : 0 < f * cfg.tsUs := Nat.mul_pos hf hts
  have hle : f * cfg.tsUs ≤ g * cfg.tsUs := Nat.mul_le_mul_right _ h
  have hquot := Nat.div_le_div_left (a := 10 ^ 9) hle hpos
  rw [periodOf_eq_half cfg hpos, periodOf_eq_half cfg (hpos.trans_le hle)]
  omega

theorem State.Inv.after_portFrame {s t : State} (h : s.Inv) (hf : PortFrame s t) : t.Inv := by
  refine .of_chan ?_ (fun c => ?_) ?_
  · rw [hf.cfg]
    exact h.cfg
  · rw [hf.cfg, hf.chan]
    exact h.chan c
  · rw [hf.cfg, hf.elapsed]
    exact h.elapsed

/-- Each event keeps the bound on ELAPSED: the period of a legal frequency is at most the longest (R38, entry 15). -/
theorem State.Inv.exec_elapsed_lt {i : Instr} {s t : State} (h : s.Inv) (hx : exec i s = .next t) :
    t.elapsed < max 1 (periodOf s.cfg s.cfg.minFreq) := by
  obtain ⟨d, -, heff⟩ | ⟨-, rfl⟩ | ⟨-, rfl⟩ := exec_cases hx
  · rw [heff.frame]
    exact h.elapsed
  · obtain ⟨-, ⟨hts, -⟩, ⟨hmin, -⟩, -⟩ := (wellFormed_iff _).mp h.cfg
    exact (syncStep_elapsed_lt s.sampled).trans_le (max_le_max_left 1 (periodOf_anti hmin hts h.chA.freq.1))
  · exact lt_max_of_lt_left one_pos

theorem State.Inv.exec_chan_ok {i : Instr} {s t : State} (h : s.Inv) (hx : exec i s = .next t) (c : Chan) :
    Channel.Ok s.cfg (t.chan c) := by
  obtain ⟨⟨-, hn4, -⟩, -, -, -, ⟨hampFull, -⟩, -⟩ := (wellFormed_iff _).mp h.cfg
  have hn : 0 < s.cfg.n := by omega
  have hok := h.chan c
  obtain hc | hc | hc | ⟨-, hc | hc⟩ := exec_chan_cases hx c
  case inr.inl => exact hok.write hampFull hc
  all_goals rw [hc]
  · exact hok
  · exact hok.resync hn
  · exact hok.tick hn
  · exact (hok.tick hn).resync hn

/-- Every event keeps the invariant. -/
theorem State.Inv.after_exec {i : Instr} {s t : State} (h : s.Inv) (hx : exec i s = .next t) : t.Inv := by
  have hcfg := (exec_cfg_inputs hx).1
  refine .of_chan ?_ ?_ ?_ <;> rw [hcfg]
  · exact h.cfg
  · exact h.exec_chan_ok hx
  · exact h.exec_elapsed_lt hx

/-- Settles O41: a reset cycle leaves the reset state, which meets the invariant; any other cycle writes port registers,
on which the invariant does not bear, and takes events, which keep it. -/
theorem stepKeepsInvariant : Obligations.StepKeepsInvariant := by
  intro s t hs h
  cases hrst : (nextPorts s).rst with
  | true =>
    rw [step_of_rst h hrst]
    exact resetOf_inv hs.cfg _
  | false =>
    exact step_preserves h hrst (fun u v hf hu => hu.after_portFrame hf) (fun i u v _ hx hu => hu.after_exec hx)
      ⟨hs.cfg, hs.chA, hs.chB, hs.elapsed⟩

end Sys2Proof.Machine

/-! SUPPORT. What the host can observe (10_state.md R50). -/

namespace Sys2Proof.Machine

/-- What `RD_HARM` returns of a slot (41_harmonic_bank.md R116). -/
def Slot.listed (sl : Slot) : Nat × Nat × Int := (sl.order, sl.str, sl.hph)

theorem view_harmonics (ch : Channel) : ch.view.harmonics = (activeSlots ch.bank).map Slot.listed := rfl

theorem view_chan {s t : State} (h : s.view = t.view) (c : Chan) : (s.chan c).view = (t.chan c).view := by
  cases c with
  | A => exact congrArg HostView.chA h
  | B => exact congrArg HostView.chB h

theorem view_writeRes_setResult (s : State) (r0 r1 r2 r3 : Word) (code : Code) :
    ((s.writeRes r0 r1 r2 r3).setResult code).view =
      { s.view with res0 := r0, res1 := r1, res2 := r2, res3 := r3, result := code } := rfl

/-- A register of the window is a function of the view (20_memory.md R61). -/
theorem readReg_of_view_eq {s t : State} (h : s.view = t.view) (r : HostReg) : readReg s r = readReg t r := by
  cases r with
  | arg0 => exact congrArg HostView.arg0 h
  | arg1 => exact congrArg HostView.arg1 h
  | arg2 => exact congrArg HostView.arg2 h
  | cmd => rfl
  | status =>
    have hlevel : s.level = t.level := congrArg HostView.level h
    have hresult : s.result = t.result := congrArg HostView.result h
    rw [readReg, readReg, State.statusWord, State.statusWord, hlevel, hresult]
  | res0 => exact congrArg HostView.res0 h
  | res1 => exact congrArg HostView.res1 h
  | res2 => exact congrArg HostView.res2 h
  | res3 => exact congrArg HostView.res3 h
  | outs =>
    have hA : s.chA.out = t.chA.out := congrArg ChannelView.out (view_chan h .A)
    have hB : s.chB.out = t.chB.out := congrArg ChannelView.out (view_chan h .B)
    rw [readReg, readReg, State.outsWord, State.outsWord, hA, hB]
  | reserved => rfl

/-- The `k`-th active slot, as `RD_HARM` lists it, is a function of the view. -/
theorem nthActive_listed (ch : Channel) (k : Int) :
    (nthActive ch.bank k).map Slot.listed = if 0 ≤ k then ch.view.harmonics[k.toNat]? else none := by
  unfold nthActive
  rw [view_harmonics]
  split
  · exact List.getElem?_map.symm
  · rfl

/-- On states of one view `RD_HARM` lists the same. -/
theorem execRdHarm_of_view_eq {s t : State} (h : s.view = t.view) (c : Chan) :
    ∃ r0 r1 r2 r3 code, execRdHarm c s = .next ((s.writeRes r0 r1 r2 r3).setResult code) ∧
      execRdHarm c t = .next ((t.writeRes r0 r1 r2 r3).setResult code) := by
  have hview := view_chan h c
  have ha0 : s.a0 = t.a0 := congrArg (fun v : HostView => sext32 v.arg0) h
  have hlen : (activeSlots (s.chan c).bank).length = (activeSlots (t.chan c).bank).length := by
    simpa [view_harmonics] using congrArg (fun v : ChannelView => v.harmonics.length) hview
  have hnth : (nthActive (s.chan c).bank s.a0).map Slot.listed = (nthActive (t.chan c).bank t.a0).map Slot.listed := by
    rw [nthActive_listed, nthActive_listed, hview, ha0]
  unfold execRdHarm
  rw [hlen]
  cases hs : nthActive (s.chan c).bank s.a0 <;> cases ht : nthActive (t.chan c).bank t.a0 <;>
    rw [hs, ht] at hnth <;> simp only [Option.map_some, Option.map_none, reduceCtorEq, Option.some.injEq] at hnth
  · exact ⟨_, _, _, _, _, rfl, rfl⟩
  · obtain ⟨horder, hstr, hhph⟩ : _ ∧ _ ∧ _ := by simpa only [Slot.listed, Prod.mk.injEq] using hnth
    exact ⟨_, _, _, _, _, rfl, by rw [horder, hstr, hhph]⟩

/-- On states of one view a read command writes the same RES registers and the same code. -/
theorem exec_read_of_view_eq {s t : State} {i : Instr} (h : s.view = t.view) (hi : isReadCommand i = true) :
    ∃ r0 r1 r2 r3 code, exec i s = .next ((s.writeRes r0 r1 r2 r3).setResult code) ∧
      exec i t = .next ((t.writeRes r0 r1 r2 r3).setResult code) := by
  cases i <;> simp only [isReadCommand, Bool.false_eq_true] at hi
  case rdHarm c => exact execRdHarm_of_view_eq h c
  case rdFreq c =>
    have hfreq : (s.chan c).freq = (t.chan c).freq := congrArg ChannelView.freq (view_chan h c)
    have hstep : (s.chan c).step = (t.chan c).step := congrArg ChannelView.step (view_chan h c)
    exact ⟨_, _, _, _, _, rfl, by rw [hfreq, hstep]; rfl⟩
  case rdPhase c =>
    have hphase : (s.chan c).phase = (t.chan c).phase := congrArg ChannelView.phase (view_chan h c)
    have hoff : (s.chan c).off = (t.chan c).off := congrArg ChannelView.off (view_chan h c)
    exact ⟨_, _, _, _, _, rfl, by rw [hphase, hoff]; rfl⟩
  case rdAmp c =>
    have hcur : (s.chan c).ampCur = (t.chan c).ampCur := congrArg ChannelView.ampCur (view_chan h c)
    have htgt : (s.chan c).ampTgt = (t.chan c).ampTgt := congrArg ChannelView.ampTgt (view_chan h c)
    exact ⟨_, _, _, _, _, rfl, by rw [hcur, htgt]; rfl⟩

/-- Settles O60: window reads and read commands are functions of the view. -/
theorem hostViewDeterminesReads : Obligations.HostViewDeterminesReads := by
  intro s t h
  refine ⟨readReg_of_view_eq h, fun i hi => ?_⟩
  obtain ⟨r0, r1, r2, r3, code, hs, ht⟩ := exec_read_of_view_eq h hi
  exact ⟨_, _, hs, ht, by rw [view_writeRes_setResult, view_writeRes_setResult, h]⟩

end Sys2Proof.Machine

/-! SUPPORT. The register window: which register an offset names, the STATUS and OUTS words, and byte lanes
(20_memory.md R61 to R63). -/

namespace Sys2Proof.Machine

/-! Offsets -/

theorem hostReg_of_reserved {off : BitVec 6} (h : 0x28 ≤ off.toNat) : hostReg off = .reserved := by
  unfold hostReg
  split
  case h_11 => rfl
  all_goals omega

/-- Only ARG0 to ARG2 and CMD, which lie below 0x10, take a write (R62). -/
theorem hostWrite_of_readOnly {off : BitVec 6} (h : 0x10 ≤ off.toNat) (v : Word) (s : State) :
    hostWrite (hostReg off) v s = .next s := by
  unfold hostReg
  split
  case h_1 | h_2 | h_3 | h_4 => omega
  all_goals rfl

/-- The lanes of an aligned offset do not run over the end of the window. -/
theorem toNat_add_lane {a : BitVec 6} (ha : a.toNat % 4 = 0) {k : Nat} (hk : k < 4) :
    (a + BitVec.ofNat 6 k).toNat = a.toNat + k := by
  have := a.isLt
  rw [BitVec.toNat_add, BitVec.toNat_ofNat]
  omega

/-- Lane `k` of an aligned offset is byte `k` of the register there (R63). -/
theorem readByte_lane (s : State) {a : BitVec 6} (ha : a.toNat % 4 = 0) {k : Nat} (hk : k < 4) :
    readByte s (a + BitVec.ofNat 6 k) = (readReg s (hostReg a)).extractLsb' (8 * k) 8 := by
  have hoff := toNat_add_lane ha hk
  have hword : (a.toNat + k) / 4 = a.toNat / 4 := by omega
  have hlane : (a.toNat + k) % 4 = k := by omega
  rw [readByte, hostReg, hostReg, hoff, hword, hlane]

/-! Words -/

theorem word_eq_append_bytes (w : Word) :
    w = ((w.extractLsb' 24 8 ++ w.extractLsb' 16 8) ++ w.extractLsb' 8 8) ++ w.extractLsb' 0 8 := by
  rw [BitVec.extractLsb'_append_extractLsb'_eq_extractLsb' (rfl : 24 = 16 + 8),
    BitVec.extractLsb'_append_extractLsb'_eq_extractLsb' (rfl : 16 = 8 + 8),
    BitVec.extractLsb'_append_extractLsb'_eq_extractLsb' (rfl : 8 = 0 + 8)]
  exact BitVec.extractLsb'_eq_self.symm

theorem statusWord_toNat (s : State) :
    s.statusWord.toNat = s.result.bits.toNat + (if s.level = true then 8 else 0) := by
  unfold State.statusWord
  cases s.result <;> cases s.level <;> rfl

theorem outsWord_toNat (s : State) : s.outsWord.toNat = s.chA.out.toNat + 256 * s.chB.out.toNat := by
  have hhigh : (0#16 ++ s.chB.out).toNat = s.chB.out.toNat := by
    rw [BitVec.toNat_append, BitVec.toNat_zero, Nat.zero_shiftLeft, Nat.zero_or]
  rw [State.outsWord, BitVec.toNat_append, hhigh, ← Nat.shiftLeft_add_eq_or_of_lt s.chA.out.isLt, Nat.shiftLeft_eq]
  omega

theorem outsWord_byte0 (s : State) : s.outsWord.extractLsb' 0 8 = s.chA.out :=
  BitVec.extractLsb'_append_eq_right

theorem outsWord_byte1 (s : State) : s.outsWord.extractLsb' 8 8 = s.chB.out := by
  rw [State.outsWord, BitVec.extractLsb'_append_eq_of_le (le_refl 8)]
  exact BitVec.extractLsb'_append_eq_right

/-! The window's obligations -/

/-- Settles O13: a word is the concatenation of its bytes, and each byte is a lane of the same register. -/
theorem byteLanesAreLittleEndian : Obligations.ByteLanesAreLittleEndian := by
  intro s
  refine ⟨fun a ha => ?_, outsWord_byte0 s, outsWord_byte1 s⟩
  have hlane0 : readByte s a = _ := 
    (congrArg (readByte s) a.add_zero).symm.trans (readByte_lane s ha (k := 0) (by decide))
  have hlane1 : readByte s (a + 1) = _ := readByte_lane s ha (k := 1) (by decide)
  have hlane2 : readByte s (a + 2) = _ := readByte_lane s ha (k := 2) (by decide)
  have hlane3 : readByte s (a + 3) = _ := readByte_lane s ha (k := 3) (by decide)
  rw [hlane0, hlane1, hlane2, hlane3]
  exact word_eq_append_bytes _

/-- Settles O11: each offset is evaluated; the STATUS and OUTS words are taken apart into their fields. -/
theorem windowRegisterMap : Obligations.WindowRegisterMap := by
  intro s v
  refine ⟨rfl, rfl, rfl, rfl, rfl, rfl, rfl, ?status, rfl, rfl, rfl, rfl, outsWord_toNat s⟩
  refine (statusWord_toNat s).trans ?_
  cases s.result <;> rfl

/-- Settles O12: CMD and the reserved offsets read 0, and from 0x10 up a write is ignored. -/
theorem reservedAndReadOnlyAccesses : Obligations.ReservedAndReadOnlyAccesses := by
  intro s off v
  refine ⟨fun h => ?_, rfl, fun h => hostWrite_of_readOnly h v s, rfl⟩
  rw [hostReg_of_reserved h, readReg]

end Sys2Proof.Machine

/-! SUPPORT. The host access of a cycle and the cycle around it, as equations (20_memory.md R64, R65, R70). -/

namespace Sys2Proof.Machine

/-! CMD words (30_encoding.md R81) -/

theorem writeCmd_of_decode {w : Word} {i : Instr} (h : decode w = .ok i) (s : State) : writeCmd w s = exec i s := by
  rw [writeCmd, h]

theorem decodeOp_of_reserved {op : BitVec 4} (h : op = 0 ∨ 0xA ≤ op.toNat) (c : Chan) :
    decodeOp op c = .error (.reservedOpcode op) := by
  have hop : op.toNat = 0 ∨ 0xA ≤ op.toNat := h.imp_left (congrArg BitVec.toNat)
  unfold decodeOp
  split
  case h_10 => rfl
  all_goals omega

/-- An ILLEGAL word: a reserved bit set, or an opcode that no row has. -/
theorem writeCmd_of_illegal {w : Word} (h : rsvField w ≠ 0 ∨ opField w = 0 ∨ 0xA ≤ (opField w).toNat)
    (s : State) : writeCmd w s = .next { s with result := .illegal } := by
  obtain ⟨e, he⟩ : ∃ e, decode w = .error e := by
    by_cases hrsv : rsvField w = 0
    · exact ⟨_, (if_pos hrsv).trans (decodeOp_of_reserved (h.resolve_left (not_not_intro hrsv)) _)⟩
    · exact ⟨_, if_neg hrsv⟩
  rw [writeCmd, he]
  rfl

/-! The host access -/

theorem hostAccess_of_noStrobe {p : PortsIn} (hwe : p.busWe = false) (hre : p.busRe = false) (s : State) :
    hostAccess p s = .next s := by
  rw [hostAccess, hwe, hre]

theorem hostAccess_of_write {p : PortsIn} (hwe : p.busWe = true) (hre : p.busRe = false)
    (halign : p.busAddr.toNat % 4 = 0) (hbe : p.busBe = 0b1111) (s : State) :
    hostAccess p s = hostWrite (hostReg p.busAddr) p.busWdata s := by
  rw [hostAccess, hwe, hre]
  exact if_pos (accessDefined_iff.mpr ⟨halign, hbe⟩)

theorem hostAccess_of_read {p : PortsIn} (hwe : p.busWe = false) (hre : p.busRe = true)
    (halign : p.busAddr.toNat % 4 = 0) (hbe : p.busBe = 0b1111) (s : State) :
    hostAccess p s = .next (hostRead (hostReg p.busAddr) s) := by
  rw [hostAccess, hwe, hre]
  exact if_pos (accessDefined_iff.mpr ⟨halign, hbe⟩)

/-- One strobe with an access that is not defined is refused, whatever the state (R64). -/
theorem hostAccess_of_undefined {p : PortsIn} (hstrobe : p.busWe ≠ p.busRe) (hdef : ¬ p.accessDefined = true)
    (s : State) : hostAccess p s = .refused .undefinedAccess := by
  unfold hostAccess
  split
  case h_1 hwe hre | h_2 hwe hre => exact absurd (hwe.trans hre.symm) hstrobe
  case h_3 | h_4 => exact if_neg hdef

/-! The cycle -/

theorem chain_next_right (o : Host.Outcome State Fault Refusal) : chain o .next = o := by
  cases o <;> rfl

/-- The TICK phase of a cycle always completes. -/
theorem exists_tickPhase_next (p : PortsIn) (s : State) : ∃ t, tickPhase p s = .next t := by
  unfold tickPhase
  split
  · exact ⟨_, exec_tick s⟩
  · exact ⟨_, rfl⟩

theorem edgeFires_iff {p : PortsIn} {s : State} : edgeFires p s = true ↔ p.syncIn = true ∧ s.edgePrev = false := by
  simp [edgeFires]

/-- A step at a legal configuration whose cycle does not reset is the three phases in order (R70). -/
theorem step_eq_phases {s : State} {p : PortsIn} {rest : List PortsIn} (hcfg : s.cfg.wellFormed = true)
    (hin : s.inputs = p :: rest) (hrst : p.rst = false) :
    step s = chain (chain (tickPhase p (openCycle p { s with inputs := rest })) (hostAccess p))
      (edgePhase (edgeFires p s)) := by
  have hports : nextPorts s = p := by rw [nextPorts, hin]
  rw [step, if_pos hcfg, runCycle, hports, hrst, hin]
  rfl

/-- Settles O14: the tick completes and the host access after it is refused. -/
theorem undefinedAccessIsRefused : Obligations.UndefinedAccessIsRefused := by
  intro s p rest hcfg hin hrst hstrobe hbad
  have hdef : ¬ p.accessDefined = true := fun h => by
    obtain ⟨halign, hbe⟩ := accessDefined_iff.mp h
    exact hbad.elim (· halign) (· hbe)
  obtain ⟨t, ht⟩ := exists_tickPhase_next p (openCycle p { s with inputs := rest })
  rw [step_eq_phases hcfg hin hrst, ht, chain_next, hostAccess_of_undefined hstrobe hdef, chain_refused]

/-- Settles O7: the phases of the cycle, and one equation per kind of host access. -/
theorem cycleAppliesTickThenHostThenEdge : Obligations.CycleAppliesTickThenHostThenEdge := by
  intro s p rest hcfg hin hrst
  refine ⟨?phases, fun u => ⟨fun hwe hre => hostAccess_of_noStrobe hwe hre u,
    fun hwe hre halign hbe => hostAccess_of_read hwe hre halign hbe u, fun hwe hre hbe => ?writes⟩⟩
  case phases =>
    rw [step_eq_phases hcfg hin hrst]
    simp only [← edgeFires_iff]
    rfl
  case writes =>
    have hwrite {a : BitVec 6} (ha : p.busAddr = a) (halign : a.toNat % 4 = 0) :
        hostAccess p u = hostWrite (hostReg a) p.busWdata u :=
      ha ▸ hostAccess_of_write hwe hre (ha ▸ halign) hbe u
    exact ⟨fun ha => hwrite ha rfl, fun ha => hwrite ha rfl, fun ha => hwrite ha rfl,
      fun ha _ hdec => (hwrite ha rfl).trans (writeCmd_of_decode hdec u),
      fun ha hillegal => (hwrite ha rfl).trans (writeCmd_of_illegal hillegal u),
      fun hge halign => (hwrite rfl halign).trans (hostWrite_of_readOnly hge _ u)⟩

/-- Settles O5: with no tick and no edge the cycle is its host write, which O7 spells out. -/
theorem stepAppliesHostWrite : Obligations.StepAppliesHostWrite := by
  intro s p rest hcfg hin hrst htick hedge hwe hre hbe
  obtain ⟨hphases, haccess⟩ := cycleAppliesTickThenHostThenEdge s p rest hcfg hin hrst
  have hstep : step s =
      hostAccess p { s with inputs := rest, edgePrev := p.syncIn, dacStb := false, busRdata := none } := by
    rw [hphases]
    simp only [htick, hedge, Bool.false_eq_true, if_false, chain_next]
    exact chain_next_right _
  obtain ⟨harg0, harg1, harg2, hcmd, hillegal, hreadOnly⟩ := (haccess _).2.2 hwe hre hbe
  rw [hstep]
  exact ⟨hcmd, hillegal, harg0, harg1, harg2, hreadOnly⟩

end Sys2Proof.Machine

/-! SUPPORT. The CMD word as its three fields, and decoding and encoding as inverses (30_encoding.md R80 to R83, R87). -/

namespace Sys2Proof

/-! The fields of a word (30_encoding.md R80) -/

@[simp] theorem rsvField_cmdWord (op : BitVec 4) (c : Chan) : rsvField (cmdWord op c) = 0 :=
  (Laws.EncodedFields.of_cmdWord op c).1

@[simp] theorem chField_cmdWord (op : BitVec 4) (c : Chan) : chField (cmdWord op c) = c :=
  (Laws.EncodedFields.of_cmdWord op c).2

@[simp] theorem opField_cmdWord (op : BitVec 4) (c : Chan) : opField (cmdWord op c) = op :=
  BitVec.extractLsb'_append_eq_right

/-- The CH bit of a word's channel is the word's own (R83). -/
theorem ofBool_chField (w : Word) : BitVec.ofBool (decide (chField w = .B)) = w.extractLsb' 4 1 := by
  have hbit : decide (chField w = .B) = w.getLsbD 4 := by
    unfold chField
    cases w.getLsbD 4 <;> rfl
  ext k hk
  obtain rfl : k = 0 := by omega
  simp [hbit]

/-- A word is the concatenation of its fields, so with RSV zero it is a CMD word. -/
theorem eq_cmdWord_of_rsvField {w : Word} (h : rsvField w = 0) : w = cmdWord (opField w) (chField w) := by
  have hrsv : (0#27 : BitVec 27) = w.extractLsb' 5 27 := h.symm
  rw [cmdWord, ofBool_chField, opField, hrsv,
    BitVec.extractLsb'_append_extractLsb'_eq_extractLsb' (rfl : 5 = 4 + 1),
    BitVec.extractLsb'_append_extractLsb'_eq_extractLsb' (rfl : 4 = 0 + 4)]
  exact BitVec.extractLsb'_eq_self.symm

theorem cmdWord_eq_iff {op : BitVec 4} {c : Chan} {w : Word} :
    cmdWord op c = w ↔ rsvField w = 0 ∧ opField w = op ∧ chField w = c := by
  constructor
  · rintro rfl
    simp
  · rintro ⟨hrsv, rfl, rfl⟩
    exact (eq_cmdWord_of_rsvField hrsv).symm

/-- The mask of the opcode table clears the CH bit and keeps the other fields (R82). -/
theorem and_mask_eq_iff {op : BitVec 4} {w : Word} :
    w &&& 0xFFFFFFEF = cmdWord op .A ↔ rsvField w = 0 ∧ opField w = op := by
  have hrsv : rsvField (w &&& 0xFFFFFFEF) = rsvField w :=
    BitVec.extractLsb'_and.trans BitVec.and_allOnes
  have hop : opField (w &&& 0xFFFFFFEF) = opField w :=
    BitVec.extractLsb'_and.trans BitVec.and_allOnes
  have hch : chField (w &&& 0xFFFFFFEF) = .A := by
    simp [chField]
  rw [eq_comm, cmdWord_eq_iff, hrsv, hop, hch]
  simp

/-! Decoding and encoding -/

theorem decode_of_rsvField {w : Word} (h : rsvField w = 0) : decode w = decodeOp (opField w) (chField w) :=
  if_pos h

@[simp] theorem decode_cmdWord (op : BitVec 4) (c : Chan) : decode (cmdWord op c) = decodeOp op c := by
  rw [decode_of_rsvField (rsvField_cmdWord op c), opField_cmdWord, chField_cmdWord]

theorem rsvField_of_decode {w : Word} {i : Instr} (h : decode w = .ok i) : rsvField w = 0 := by
  by_contra hrsv
  rw [decode, if_neg hrsv] at h
  cases h

/-- Each opcode that decodes is the one its command is encoded with (R82). -/
theorem encode_of_decodeOp {op : BitVec 4} {c : Chan} {i : Instr} (h : decodeOp op c = .ok i) :
    encode i = some (cmdWord op c) := by
  unfold decodeOp at h
  split at h
  case h_10 => cases h
  all_goals
    rename_i hop
    replace hop := congrArg (BitVec.ofNat 4) hop
    rw [BitVec.ofNat_toNat, BitVec.setWidth_eq] at hop
    subst hop
    cases h
    rfl

theorem decode_of_encode {i : Instr} {w : Word} (h : encode i = some w) : decode w = .ok i := by
  cases i
  case tick | edge => cases h
  all_goals
    cases h
    exact decode_cmdWord ..

theorem encode_of_decode {w : Word} {i : Instr} (h : decode w = .ok i) : encode i = some w := by
  have hrsv := rsvField_of_decode h
  rw [eq_cmdWord_of_rsvField hrsv]
  exact encode_of_decodeOp ((decode_of_rsvField hrsv).symm.trans h)

theorem exists_encode {i : Instr} (h : i.isCommand = true) : ∃ w, encode i = some w := by
  cases i
  case tick | edge => cases h
  all_goals exact ⟨_, rfl⟩

/-- Settles O1: a word that decodes is the CMD word of its opcode and channel, and a CMD word decodes to its command. -/
theorem decodeIffEncode : Obligations.DecodeIffEncode := by
  refine ⟨fun w i => ⟨encode_of_decode, decode_of_encode⟩, fun i hi => ?_⟩
  obtain ⟨w, hw⟩ := exists_encode hi
  exact ⟨w, hw, decode_of_encode hw⟩

/-- Settles O4: each word is evaluated. -/
theorem sampleCmdWordsDecode : Obligations.SampleCmdWordsDecode := by
  unfold Obligations.SampleCmdWordsDecode
  decide

/-- Every row of the opcode table is one opcode: its `match` and its command's encoding hold it, its mask is every bit
but CH (R82). -/
theorem opcodeTable_row {r : OpcodeRow} (h : r ∈ opcodeTable) :
    ∃ op, r.mask = 0xFFFFFFEF ∧ r.pattern = cmdWord op .A ∧ ∀ c, encode (r.command c) = some (cmdWord op c) := by
  simp only [opcodeTable, List.mem_cons, List.not_mem_nil, or_false] at h
  obtain rfl | rfl | rfl | rfl | rfl | rfl | rfl | rfl | rfl := h
  all_goals exact ⟨_, rfl, by decide, fun _ => rfl⟩

/-- Settles O2: by O1 the word is the CMD word of the row's opcode and the channel; the mask leaves RSV and OP. -/
theorem decodeFollowsOpcodeTable : Obligations.DecodeFollowsOpcodeTable := by
  intro w r c hr
  obtain ⟨op, hmask, hpattern, hencode⟩ := opcodeTable_row hr
  calc decode w = .ok (r.command c)
    _ ↔ encode (r.command c) = some w := decodeIffEncode.1 w _
    _ ↔ cmdWord op c = w := by rw [hencode, Option.some.injEq]
    _ ↔ (rsvField w = 0 ∧ opField w = op) ∧ chField w = c := cmdWord_eq_iff.trans and_assoc.symm
    _ ↔ w &&& r.mask = r.pattern ∧ chField w = c := by rw [hmask, hpattern, and_mask_eq_iff]

end Sys2Proof

namespace Sys2Proof.Machine

/-- Settles O3: each listed opcode is evaluated on the word's channel; the other words are ILLEGAL. -/
theorem cmdWriteRunsDecodedCommand : Obligations.CmdWriteRunsDecodedCommand := by
  intro w s
  refine ⟨fun i hrsv hmem => writeCmd_of_decode ?_ s, fun hillegal => writeCmd_of_illegal hillegal s⟩
  rw [decode_of_rsvField hrsv]
  simp only [List.mem_cons, List.not_mem_nil, or_false, Prod.mk.injEq] at hmem
  obtain ⟨hop, rfl⟩ | ⟨hop, rfl⟩ | ⟨hop, rfl⟩ | ⟨hop, rfl⟩ | ⟨hop, rfl⟩ | ⟨hop, rfl⟩ | ⟨hop, rfl⟩ | ⟨hop, rfl⟩ |
    ⟨hop, rfl⟩ := hmem
  all_goals
    rw [hop]
    rfl

end Sys2Proof.Machine

/-! SUPPORT. Cycles without an event of one kind, and the cycles of an assembly line (30_encoding.md R87, R88). -/

namespace Sys2Proof.Machine

/-! One cycle -/

/-- The state in which the events of a cycle run: the cycle consumed, `sync` sampled by EDGE_PREV (44_sync_controller.md
R174), DAC_STB low and BUS_RDATA not valid (entry 3). -/
def State.inCycle (s : State) (sync : Bool) (rest : List PortsIn) : State :=
  { s with inputs := rest, edgePrev := sync, dacStb := false, busRdata := none }

section
variable {s : State} {p : PortsIn} {rest : List PortsIn}

/-- A cycle with neither a tick nor an edge is its host access. -/
theorem step_of_hostAccess (hcfg : s.cfg.wellFormed = true) (hin : s.inputs = p :: rest) (hrst : p.rst = false)
    (htick : p.tickIn = false) (hedge : ¬(p.syncIn = true ∧ s.edgePrev = false)) :
    step s = hostAccess p (s.inCycle p.syncIn rest) := by
  obtain ⟨hphases, -⟩ := cycleAppliesTickThenHostThenEdge s p rest hcfg hin hrst
  rw [hphases]
  simp only [htick, hedge, Bool.false_eq_true, if_false, chain_next]
  exact chain_next_right _

theorem step_of_syncLow (hcfg : s.cfg.wellFormed = true) (hin : s.inputs = p :: rest) (hrst : p.rst = false)
    (htick : p.tickIn = false) (hsync : p.syncIn = false) : step s = hostAccess p (s.inCycle false rest) := by
  rw [step_of_hostAccess hcfg hin hrst htick (by simp [hsync]), hsync]

/-- A cycle without a bus strobe is its tick and then its edge. -/
theorem step_of_noStrobe (hcfg : s.cfg.wellFormed = true) (hin : s.inputs = p :: rest) (hrst : p.rst = false)
    (hwe : p.busWe = false) (hre : p.busRe = false) :
    step s = chain (if p.tickIn = true then exec .tick (s.inCycle p.syncIn rest) else .next (s.inCycle p.syncIn rest))
      (fun t => if p.syncIn = true ∧ s.edgePrev = false then exec .edge t else .next t) := by
  obtain ⟨hphases, -⟩ := cycleAppliesTickThenHostThenEdge s p rest hcfg hin hrst
  have haccess : hostAccess p = .next := funext (hostAccess_of_noStrobe hwe hre)
  rw [hphases, haccess, chain_next_right]
  rfl

end

/-- Settles O6: without a strobe the cycle is its tick and its edge, and one of the two is absent. -/
theorem stepRunsTickAndEdgeCycles : Obligations.StepRunsTickAndEdgeCycles := by
  intro s p rest hcfg hin hrst hwe hre
  rw [step_of_noStrobe hcfg hin hrst hwe hre]
  refine ⟨fun htick hedge => ?_, fun htick hsync hprev => ?_⟩
  · rw [if_pos htick]
    simp only [if_neg hedge]
    exact chain_next_right _
  · simp only [htick, hsync, hprev, Bool.false_eq_true, and_self, if_false, if_true, chain_next]
    rfl

/-! The cycles of a line (30_encoding.md R88) -/

theorem runSteps_one (s : State) : runSteps 1 s = step s := chain_next_right _

theorem runSteps_succ_of_step {s t : State} (h : step s = .next t) (k : Nat) : runSteps (k + 1) s = runSteps k t := by
  rw [runSteps, h, chain_next]

section
variable {s : State} {rest : List PortsIn} {off : BitVec 6}

theorem step_memWrite {v : Word} (hcfg : s.cfg.wellFormed = true) (hin : s.inputs = .memWrite false off v :: rest)
    (halign : off.toNat % 4 = 0) : step s = hostWrite (hostReg off) v (s.inCycle false rest) :=
  (step_of_syncLow hcfg hin rfl rfl rfl).trans (hostAccess_of_write rfl rfl halign rfl _)

theorem step_memRead (hcfg : s.cfg.wellFormed = true) (hin : s.inputs = .memRead false off :: rest)
    (halign : off.toNat % 4 = 0) : step s = .next (hostRead (hostReg off) (s.inCycle false rest)) :=
  (step_of_syncLow hcfg hin rfl rfl rfl).trans (hostAccess_of_read rfl rfl halign rfl _)

theorem step_idle (hcfg : s.cfg.wellFormed = true) (hin : s.inputs = .idle false :: rest) :
    step s = .next (s.inCycle false rest) :=
  (step_of_syncLow hcfg hin rfl rfl rfl).trans (hostAccess_of_noStrobe rfl rfl _)

/-- The write of a command's own CMD word runs the command (R81, R82). -/
theorem step_cmdCycle {i : Instr} {op : BitVec 4} {c : Chan} (hi : encode i = some (cmdWord op c))
    (hcfg : s.cfg.wellFormed = true) (hin : s.inputs = cmdCycle op c :: rest) :
    step s = exec i (s.inCycle false rest) :=
  (step_memWrite hcfg hin rfl).trans (writeCmd_of_decode (decode_of_encode hi) _)

/-- A write at the head of a line, where the write completes. -/
theorem runSteps_succ_memWrite {v : Word} {t : State} {k : Nat} (hcfg : s.cfg.wellFormed = true)
    (hin : s.inputs = .memWrite false off v :: rest) (halign : off.toNat % 4 = 0)
    (hwrite : hostWrite (hostReg off) v (s.inCycle false rest) = .next t) :
    runSteps (k + 1) s = runSteps k t :=
  runSteps_succ_of_step ((step_memWrite hcfg hin halign).trans hwrite) k

/-- An operand write and the write of a CMD word: the operand is in place when the command runs (R84, R88). -/
theorem runSteps_arg0_command {i : Instr} {op : BitVec 4} {c : Chan} {v : Word} (hi : encode i = some (cmdWord op c))
    (hcfg : s.cfg.wellFormed = true) (hin : s.inputs = [.memWrite false 0x00 v, cmdCycle op c] ++ rest) :
    runSteps 2 s = exec i { s.inCycle false rest with arg0 := v } := by
  rw [runSteps_succ_memWrite hcfg hin rfl rfl, runSteps_one]
  exact step_cmdCycle hi hcfg rfl

/-- Three operand writes and the write of a CMD word. -/
theorem runSteps_args_command {i : Instr} {op : BitVec 4} {c : Chan} {v₀ v₁ v₂ : Word}
    (hi : encode i = some (cmdWord op c)) (hcfg : s.cfg.wellFormed = true)
    (hin : s.inputs =
      [.memWrite false 0x00 v₀, .memWrite false 0x04 v₁, .memWrite false 0x08 v₂, cmdCycle op c] ++ rest) :
    runSteps 4 s = exec i { s.inCycle false rest with arg0 := v₀, arg1 := v₁, arg2 := v₂ } := by
  refine (runSteps_succ_memWrite hcfg hin rfl rfl).trans ?_
  refine Eq.trans (runSteps_succ_memWrite hcfg rfl rfl rfl) ?_
  refine Eq.trans (runSteps_succ_memWrite hcfg rfl rfl rfl) ?_
  exact (runSteps_one _).trans (step_cmdCycle hi hcfg rfl)

/-- Each command line writes its operands and then runs its command. -/
theorem runSteps_command {line : AsmLine} {i : Instr} (hi : line.command? = some i) (hcfg : s.cfg.wellFormed = true)
    (hin : s.inputs = line.expand ++ rest) :
    runSteps line.expand.length s = exec i (line.setArgs (s.inCycle false rest)) := by
  cases line <;> cases hi
  case wrFreq | wrPhase | wrAmp | rdHarm => exact runSteps_arg0_command rfl hcfg hin
  case rdFreq | rdPhase | rdAmp | clrHarm => exact (runSteps_one s).trans (step_cmdCycle rfl hcfg hin)
  case wrHarm => exact runSteps_args_command rfl hcfg hin

/-- The edge line: SYNC_IN is sampled low, and its rise makes one edge (entry 22). -/
theorem runSteps_edgeLine (hcfg : s.cfg.wellFormed = true) (hin : s.inputs = AsmLine.edge.expand ++ rest) :
    runSteps 2 s = exec .edge (s.inCycle true rest) := by
  rw [runSteps_succ_of_step (step_idle hcfg hin), runSteps_one]
  obtain ⟨-, hedge⟩ := stepRunsTickAndEdgeCycles (s.inCycle false (.idle true :: rest)) (.idle true) rest
    hcfg rfl rfl rfl rfl
  exact hedge rfl rfl rfl

/-! A line of ticks -/

/-- The cycle of one tick in a line of ticks, SYNC_IN low. -/
theorem step_tickCycle (hcfg : s.cfg.wellFormed = true)
    (hin : s.inputs = { PortsIn.idle false with tickIn := true } :: rest) :
    step s = exec .tick (s.inCycle false rest) :=
  (stepRunsTickAndEdgeCycles s _ rest hcfg hin rfl rfl rfl).1 rfl (fun h => Bool.false_ne_true h.1)

end

/-- The sync step reads and writes none of the port registers and not the cycles to come. -/
theorem syncStep_of_ports (s : State) (sync : Bool) (rd : Option Word) (rest : List PortsIn) :
    syncStep { s with inputs := rest, edgePrev := sync, busRdata := rd } =
      { syncStep s with inputs := rest, edgePrev := sync, busRdata := rd } := by
  simp only [syncStep]
  split_ifs <;> rfl

/-- What a TICK leaves makes the same next TICK with a cycle opened in between and without: the TICK sets DAC_STB anew
(43_synthesizer_tick.md R155). -/
theorem execTicks_inCycle_syncStep (s : State) (sync : Bool) (rest rest' : List PortsIn) (k : Nat) :
    execTicks (k + 1) ((syncStep (s.inCycle sync rest').sampled).inCycle sync rest) =
      execTicks (k + 1) (syncStep (s.inCycle sync rest).sampled) := by
  have hports (r : List PortsIn) : syncStep (s.inCycle sync r).sampled =
      { syncStep s.sampled with inputs := r, edgePrev := sync, busRdata := none } :=
    syncStep_of_ports s.sampled sync none r
  rw [hports, hports]
  rfl

/-- The ticks of a line, one a cycle, are ticks with nothing between them. -/
theorem runSteps_tickLine {s : State} {rest : List PortsIn} (k : Nat) (hcfg : s.cfg.wellFormed = true)
    (hin : s.inputs = (AsmLine.tick (k + 1)).expand ++ rest) :
    runSteps (k + 1) s = execTicks (k + 1) (s.inCycle false rest) := by
  induction k generalizing s with
  | zero =>
    rw [runSteps_one, execTicks_succ]
    exact (step_tickCycle hcfg hin).trans (chain_next_right _).symm
  | succ k ih =>
    set others := (AsmLine.tick (k + 1)).expand ++ rest
    have hstep : step s = .next (syncStep (s.inCycle false others).sampled) := step_tickCycle hcfg hin
    obtain ⟨hcfg', hin'⟩ := exec_cfg_inputs (exec_tick (s.inCycle false others))
    calc runSteps (k + 2) s
      _ = runSteps (k + 1) (syncStep (s.inCycle false others).sampled) := runSteps_succ_of_step hstep _
      _ = execTicks (k + 1) ((syncStep (s.inCycle false others).sampled).inCycle false rest) :=
        ih (hcfg' ▸ hcfg) hin'
      _ = execTicks (k + 1) (syncStep (s.inCycle false rest).sampled) := execTicks_inCycle_syncStep ..
      _ = execTicks (k + 2) (s.inCycle false rest) := (execTicks_succ ..).symm

/-- Settles O58: a command line by `runSteps_command`, and one lemma for each other kind of line. -/
theorem assemblyLinesRunTheirCommands : Obligations.AssemblyLinesRunTheirCommands := by
  intro s line rest hcfg hin
  refine ⟨fun i hi => runSteps_command hi hcfg hin, ?memWrite, ?ldr, ?tick, ?edge⟩
  case memWrite =>
    rintro off v halign rfl
    exact (runSteps_one s).trans (step_memWrite hcfg hin halign)
  case ldr =>
    rintro off halign rfl
    rw [runSteps_one, step_memRead hcfg hin halign, hostRead, readReg_of_view_eq (t := s) rfl]
    rfl
  case tick =>
    rintro k hk rfl
    obtain ⟨k, rfl⟩ := Nat.exists_eq_add_of_le' hk
    exact runSteps_tickLine k hcfg hin
  case edge =>
    rintro rfl
    exact runSteps_edgeLine hcfg hin

end Sys2Proof.Machine

/-! SUPPORT. The ROM as the table of the rounded sine (40_waveform_table.md R100, R101). -/

namespace Sys2Proof.Machine

/-- The angle of entry `i` in a quarter cycle of `q` entries (R100). -/
noncomputable def entryAngle (q i : Nat) : ℝ := i * (Real.pi / 2) / q

/-- R100's value at an angle, with the exact real sine. -/
noncomputable def roundedSine (x : ℝ) : Int := ⌊(255 / 2 : ℝ) * Real.sin x + 128⌋

/-- The two forms of R100 are one value. -/
theorem roundedSine_eq_floor_half (x : ℝ) :
    roundedSine x = ⌊(255 / 2 : ℝ) * Real.sin x + 255 / 2 + 1 / 2⌋ := by
  rw [roundedSine]
  congr 1
  ring

/-- The levels a rounded sine reaches, as `romLo_level` and `romHi_level` say it of the two bounds. -/
theorem le_roundedSine_iff (x : ℝ) (k : Nat) :
    ((128 + k : Nat) : Int) ≤ roundedSine x ↔ 2 * (k : ℝ) / 255 ≤ Real.sin x := by
  rw [roundedSine, Int.le_floor]
  push_cast
  constructor <;> intro h <;> linarith

theorem roundedSine_le_255 (x : ℝ) : roundedSine x ≤ 255 := by
  have hlt : roundedSine x < 256 := Int.floor_lt.mpr (by push_cast; linarith [Real.sin_le_one x])
  omega

theorem roundedSine_mono {x y : ℝ} (h : Real.sin x ≤ Real.sin y) : roundedSine x ≤ roundedSine y :=
  Int.floor_le_floor (by linarith)

theorem entryAngle_mono (q : Nat) {i j : Nat} (h : i ≤ j) : entryAngle q i ≤ entryAngle q j := by
  have hpi := Real.pi_pos
  unfold entryAngle
  gcongr

theorem entryAngle_nonneg (q i : Nat) : 0 ≤ entryAngle q i := by
  have hpi := Real.pi_pos
  unfold entryAngle
  positivity

theorem entryAngle_le_pi_div_two {q i : Nat} (h : i ≤ q) : entryAngle q i ≤ Real.pi / 2 := by
  have hpi := Real.pi_pos
  have hiq : (i : ℝ) / q ≤ 1 := div_le_one_of_le₀ (by exact_mod_cast h) (by positivity)
  calc entryAngle q i = i / q * (Real.pi / 2) := by unfold entryAngle; ring
    _ ≤ 1 * (Real.pi / 2) := by gcongr
    _ = Real.pi / 2 := one_mul _

/-- The sine does not decrease along the angles of a quarter cycle, its end included. -/
theorem sin_entryAngle_mono {q i j : Nat} (hij : i ≤ j) (hj : j ≤ q) :
    Real.sin (entryAngle q i) ≤ Real.sin (entryAngle q j) :=
  Real.sin_le_sin_of_le_of_le_pi_div_two (by linarith [entryAngle_nonneg q i, Real.pi_pos])
    (entryAngle_le_pi_div_two hj) (entryAngle_mono q hij)

theorem sin_entryAngle_nonneg {q i : Nat} (h : i ≤ q) : 0 ≤ Real.sin (entryAngle q i) := by
  simpa [entryAngle] using sin_entryAngle_mono (Nat.zero_le i) h

/-- The partial sums behind the two bounds of an entry lie around the sine of its exact angle. -/
theorem sin_entryAngle_bracket {i q : Nat} (hi : i < q) (hq : q ≤ 2 ^ 29) :
    sinSum 13 ((i : ℝ) / q * (piLo / 10 ^ 20) / 2) ≤ Real.sin (entryAngle q i) ∧
    Real.sin (entryAngle q i) ≤ sinSum 12 ((i : ℝ) / q * (piHi / 10 ^ 20) / 2) := by
  obtain ⟨hlo, hlt, hgt, hhi⟩ := angles_ordered (by omega) (index_angle_ok hi hq)
  have hangle : entryAngle q i = (i : ℝ) / q * Real.pi / 2 := by unfold entryAngle; ring
  have hpi := Real.pi_pos
  rw [hangle]
  constructor
  · exact (sinSum_le_sin rfl hlo).trans
      (Real.sin_le_sin_of_le_of_le_pi_div_two (by linarith) (hgt.trans hhi) hlt)
  · exact (Real.sin_le_sin_of_le_of_le_pi_div_two (by linarith) hhi hgt).trans
      (sin_le_sinSum rfl (by linarith))

theorem romLo_le_roundedSine {n i : Nat} (hn : n ≤ 2 ^ 31) (hi : i < n / 4) :
    (romLo n i : Int) ≤ roundedSine (entryAngle (n / 4) i) := by
  have hlevel := romLo_level (n := n) (i := i) rfl (by omega)
  have hbase : 128 ≤ romLo n i := (hlevel 0).mpr (by simpa using sinSum_nonneg hi (by omega))
  obtain ⟨k, hk⟩ := Nat.exists_eq_add_of_le hbase
  rw [hk, le_roundedSine_iff]
  exact ((hlevel k).mp hk.ge).trans (sin_entryAngle_bracket hi (by omega)).1

theorem roundedSine_le_romHi {n i : Nat} (hn : n ≤ 2 ^ 31) (hi : i < n / 4) :
    roundedSine (entryAngle (n / 4) i) ≤ romHi n i := by
  have hbase : ((128 + 0 : Nat) : Int) ≤ roundedSine (entryAngle (n / 4) i) :=
    (le_roundedSine_iff _ 0).mpr (by simpa using sin_entryAngle_nonneg hi.le)
  obtain ⟨k, hk⟩ : ∃ k : Nat, ((128 + k : Nat) : Int) = roundedSine (entryAngle (n / 4) i) :=
    ⟨(roundedSine (entryAngle (n / 4) i) - 128).toNat, by omega⟩
  have hreach := ((le_roundedSine_iff _ k).mp hk.le).trans (sin_entryAngle_bracket hi (by omega)).2
  rw [← hk]
  exact_mod_cast (romHi_level rfl (by omega) k).mpr hreach

/-- R100 at every legal table size: the two bounds agree, so the value between them is the entry. -/
theorem rom_eq_roundedSine {n i : Nat} (hn : n ≤ 2 ^ 31) (hi : i < n / 4) :
    (rom n i : Int) = roundedSine (entryAngle (n / 4) i) := by
  refine le_antisymm (romLo_le_roundedSine hn hi) ((roundedSine_le_romHi hn hi).trans ?_)
  rw [← romLo_eq_romHi hn hi, rom]

/-! The range and the shape of the ROM (R101) -/

theorem rom_le_255 {n i : Nat} (hn : n ≤ 2 ^ 31) (hi : i < n / 4) : rom n i ≤ 255 := by
  have hle := roundedSine_le_255 (entryAngle (n / 4) i)
  rw [← rom_eq_roundedSine hn hi] at hle
  omega

theorem rom_mono {n i j : Nat} (hn : n ≤ 2 ^ 31) (hij : i ≤ j) (hj : j < n / 4) : rom n i ≤ rom n j := by
  have hle := roundedSine_mono (sin_entryAngle_mono hij hj.le)
  rw [← rom_eq_roundedSine hn hj, ← rom_eq_roundedSine hn (hij.trans_lt hj)] at hle
  omega

/-- R100's corner case: the sine is 0 at the first entry. -/
theorem rom_zero {n : Nat} (hn : n ≤ 2 ^ 31) (h4 : 4 ≤ n) : rom n 0 = 128 := by
  have heq := rom_eq_roundedSine hn (i := 0) (by omega)
  simp only [roundedSine, entryAngle, Nat.cast_zero, zero_mul, zero_div, Real.sin_zero, mul_zero, zero_add] at heq
  norm_num at heq
  exact_mod_cast heq

/-- Settles O51: the partial sums of the two bounds lie around the sine, level by level. -/
theorem romBracketsRoundedSine : Obligations.RomBracketsRoundedSine := fun _ _ _ _ hn hi =>
  ⟨romLo_le_roundedSine hn hi, roundedSine_le_romHi hn hi⟩

/-- Settles O52: the entry is the rounded sine, which both forms of R100 give. -/
theorem romIsRoundedSine : Obligations.RomIsRoundedSine := fun _ _ _ _ hn hi =>
  ⟨rom_eq_roundedSine hn hi, (rom_eq_roundedSine hn hi).trans (roundedSine_eq_floor_half _)⟩

/-- Settles O53: the lower end of the range is the first entry, by monotony. -/
theorem romRangeAndShape : Obligations.RomRangeAndShape := by
  intro n i _ h4 hn hi
  have hfirst := rom_zero hn h4
  have hlow : rom n 0 ≤ rom n i := rom_mono hn (Nat.zero_le i) hi
  exact ⟨⟨by omega, rom_le_255 hn hi⟩, fun _ hij hj => rom_mono hn hij hj, hfirst⟩

end Sys2Proof.Machine

/-! SUPPORT. The reconstruction of a cycle from its first half (40_waveform_table.md R102, R104, R105). -/

namespace Sys2Proof.Machine

/-- The ROM entry that index `r` of a half cycle reads: its own, and past the quarter the mirrored one (R102, R103). -/
def quarterIndex (q r : Nat) : Nat := if r < q then r else q - 1 - (r - q)

theorem quarterIndex_lt {q : Nat} (hq : 0 < q) (r : Nat) : quarterIndex q r < q := by
  unfold quarterIndex
  split_ifs <;> omega

/-- Quadrants 1 and 2 of R102. -/
theorem wsample_firstHalf {n r : Nat} {idx : Int} (hidx : idx % n = r) (hr : r < 2 * (n / 4)) :
    wsample n idx = rom n (quarterIndex (n / 4) r) := by
  simp only [wsample, quarterIndex, hidx, Int.toNat_natCast, if_pos hr]
  split_ifs <;> rfl

/-- Quadrants 3 and 4 of R102. -/
theorem wsample_secondHalf {n r : Nat} {idx : Int} (hidx : idx % n = (2 * (n / 4) + r : Nat)) :
    wsample n idx = 255 - rom n (quarterIndex (n / 4) r) := by
  have h1 : ¬ 2 * (n / 4) + r < n / 4 := by omega
  have h2 : ¬ 2 * (n / 4) + r < 2 * (n / 4) := by omega
  simp only [wsample, quarterIndex, hidx, Int.toNat_natCast, if_neg h1, if_neg h2]
  by_cases hr : r < n / 4
  · rw [if_pos (by omega), if_pos hr, Nat.add_sub_cancel_left]
  · rw [if_neg (by omega), if_neg hr]
    congr 3
    omega

/-- Half a cycle on, an index of the first half lies in the second, and one of the second in the first. -/
theorem add_half_emod {q : Nat} (hq : 0 < q) (idx : Int) :
    ∃ r : Nat, r < 2 * q ∧
      ((idx % (4 * q : Nat) = r ∧ (idx + (2 * q : Nat)) % (4 * q : Nat) = (2 * q + r : Nat)) ∨
       (idx % (4 * q : Nat) = (2 * q + r : Nat) ∧ (idx + (2 * q : Nat)) % (4 * q : Nat) = r)) := by
  have hpos : (0 : Int) < (4 * q : Nat) := by omega
  have hnonneg := Int.emod_nonneg idx hpos.ne'
  have hlt := Int.emod_lt_of_pos idx hpos
  rw [← Int.emod_add_emod idx]
  obtain ⟨a, ha⟩ := Int.eq_ofNat_of_zero_le hnonneg
  rw [ha] at hlt ⊢
  rcases lt_or_ge a (2 * q) with hhalf | hhalf
  · refine ⟨a, hhalf, .inl ⟨rfl, ?_⟩⟩
    rw [Int.emod_eq_of_lt (by omega) (by omega)]
    omega
  · obtain ⟨r, rfl⟩ := Nat.exists_eq_add_of_le hhalf
    refine ⟨r, by omega, .inr ⟨rfl, ?_⟩⟩
    rw [show ((2 * q + r : Nat) : Int) + (2 * q : Nat) = r + (4 * q : Nat) by omega, Int.add_emod_right,
      Int.emod_eq_of_lt (by omega) (by omega)]

/-- Settles O54: one of the two indices lies in the first half of the cycle, and the other reads the complement of the
same entry. -/
theorem wsampleHalfCycleAntisymmetry : Obligations.WsampleHalfCycleAntisymmetry := by
  intro n idx hn4 h4 hn
  obtain ⟨q, rfl⟩ := Nat.dvd_of_mod_eq_zero hn4
  have hq : 4 * q / 4 = q := by omega
  rw [show 4 * q / 2 = 2 * q by omega]
  obtain ⟨r, hr, hrs⟩ := add_half_emod (show 0 < q by omega) idx
  have hle := rom_le_255 hn (i := quarterIndex (4 * q / 4) r) (quarterIndex_lt (by omega) r)
  rcases hrs with ⟨hfirst, hsecond⟩ | ⟨hsecond, hfirst⟩ <;>
    rw [wsample_firstHalf hfirst (by omega), wsample_secondHalf (by rw [hsecond, hq])] <;> omega

/-! The distance to the full-resolution table (R104): a mirrored entry lies one index beside the exact angle. -/

/-- Sines at most one count apart round to values at most one count apart. -/
theorem roundedSine_near {x y : ℝ} (hle : Real.sin x ≤ Real.sin y) (hnear : Real.sin y ≤ Real.sin x + 2 / 255) :
    |roundedSine x - roundedSine y| ≤ 1 := by
  have hmono := roundedSine_mono hle
  have hup : roundedSine y ≤ roundedSine x + 1 := by
    rw [roundedSine, roundedSine, ← Int.floor_add_one]
    exact Int.floor_le_floor (by linarith)
  rw [abs_le]
  omega

/-- The same half a cycle on, where the complement stands for the negated sine. -/
theorem compl_roundedSine_near {x y : ℝ} (hle : Real.sin x ≤ Real.sin y)
    (hnear : Real.sin y ≤ Real.sin x + 2 / 255) : |255 - roundedSine x - roundedSine (y + Real.pi)| ≤ 1 := by
  have hfloor := Int.floor_le ((255 / 2 : ℝ) * Real.sin x + 128)
  have hlt := Int.lt_floor_add_one ((255 / 2 : ℝ) * Real.sin x + 128)
  have hlo : 254 - roundedSine x ≤ roundedSine (y + Real.pi) := by
    rw [roundedSine, roundedSine, Int.le_floor, Real.sin_add_pi]
    push_cast
    linarith
  have hhi : roundedSine (y + Real.pi) < 257 - roundedSine x := by
    rw [roundedSine, roundedSine, Int.floor_lt, Real.sin_add_pi]
    push_cast
    linarith
  rw [abs_le]
  omega

/-- The exact angle of index `m` in the reference table. -/
noncomputable def referenceAngle (m : Nat) : ℝ := 2 * Real.pi * m / 1024

theorem referenceAngle_add_half (m : Nat) : referenceAngle (512 + m) = referenceAngle m + Real.pi := by
  unfold referenceAngle
  push_cast
  ring

/-- An index of the second quarter has the sine of its mirror about the quarter cycle. -/
theorem sin_referenceAngle_mirror {m : Nat} (hm : m ≤ 512) :
    Real.sin (referenceAngle m) = Real.sin (entryAngle 256 (512 - m)) := by
  rw [← Real.sin_pi_sub]
  congr 1
  unfold referenceAngle entryAngle
  push_cast [hm]
  ring

/-- Neighbouring entries of the reference table are less than one count apart, as `pi/512 < 2/255`. -/
theorem sin_entryAngle_succ_near (i : Nat) :
    Real.sin (entryAngle 256 (i + 1)) ≤ Real.sin (entryAngle 256 i) + 2 / 255 := by
  have hstep : entryAngle 256 (i + 1) - entryAngle 256 i = Real.pi / 512 := by
    unfold entryAngle
    push_cast
    ring
  have hlip := (abs_le.mp (Real.abs_sin_sub_sin_le (entryAngle 256 (i + 1)) (entryAngle 256 i))).2
  rw [hstep, abs_of_pos (by positivity)] at hlip
  linarith [Real.pi_lt_d2]

/-- The entry read for an index of the first half cycle is at most one count below the exact sine. -/
theorem sin_quarterIndex_near {m : Nat} (hm : m < 512) :
    Real.sin (entryAngle 256 (quarterIndex 256 m)) ≤ Real.sin (referenceAngle m) ∧
    Real.sin (referenceAngle m) ≤ Real.sin (entryAngle 256 (quarterIndex 256 m)) + 2 / 255 := by
  unfold quarterIndex
  split_ifs with hq
  · have hexact : referenceAngle m = entryAngle 256 m := by
      unfold referenceAngle entryAngle
      push_cast
      ring
    rw [hexact]
    exact ⟨le_rfl, by linarith⟩
  · obtain ⟨i, hi⟩ : ∃ i, 512 - m = i + 1 := ⟨511 - m, by omega⟩
    rw [sin_referenceAngle_mirror hm.le, hi, show 256 - 1 - (m - 256) = i by omega]
    exact ⟨sin_entryAngle_mono i.le_succ (by omega), sin_entryAngle_succ_near i⟩

/-- Settles O55: the entry read lies at most one count beside the exact sine, and O54 carries it to the second half. -/
theorem referenceReconstructionWithinOneCount : Obligations.ReferenceReconstructionWithinOneCount := by
  intro idx hidx
  have hrom (m : Nat) : (rom 1024 (quarterIndex 256 m) : Int) = roundedSine (entryAngle 256 (quarterIndex 256 m)) :=
    rom_eq_roundedSine (by norm_num) (quarterIndex_lt (by norm_num) m)
  have hfirst (m : Nat) (hm : m < 512) : wsample 1024 m = rom 1024 (quarterIndex 256 m) :=
    wsample_firstHalf (by omega) hm
  rw [← roundedSine_eq_floor_half]
  change |_ - roundedSine (referenceAngle idx)| ≤ 1
  rcases lt_or_ge idx 512 with h | h
  · obtain ⟨hle, hnear⟩ := sin_quarterIndex_near h
    rw [hfirst idx h, hrom]
    exact roundedSine_near hle hnear
  · obtain ⟨m, rfl⟩ := Nat.exists_eq_add_of_le h
    have hm : m < 512 := by omega
    obtain ⟨hle, hnear⟩ := sin_quarterIndex_near hm
    have hanti := wsampleHalfCycleAntisymmetry 1024 m (by norm_num) (by norm_num) (by norm_num)
    rw [hfirst m hm, hrom] at hanti
    rw [referenceAngle_add_half, Nat.cast_add, add_comm, hanti]
    exact compl_roundedSine_near hle hnear

end Sys2Proof.Machine

/-! SUPPORT. The harmonic bank commands as equations, one per outcome, and the active count after a slot is replaced
(41_harmonic_bank.md R110 to R117). -/

namespace Sys2Proof.Machine

/-- What a command that writes one bank leaves, as an update of the channel's register record. -/
theorem setBank_setResult (s : State) (c : Chan) (bank : List Slot) (code : Code) :
    (s.setBank c bank).setResult code =
      State.setChan { s with result := code } c { s.chan c with bank := bank } := by
  cases c <;> rfl

/-! The slots that WR_HARM looks for -/

/-- The operand and the ORDER registers name the same orders: an order is not negative. -/
theorem order_ne_toNat {k : Int} {bank : List Slot} (hk : 3 ≤ k) (h : ∀ x ∈ bank, (x.order : Int) ≠ k) :
    ∀ x ∈ bank, x.order ≠ k.toNat := by
  intro x hx
  have hne := h x hx
  omega

/-- The in-place update of the first slot of an order leaves that order in it (R114). -/
theorem updateSlot_append {cfg : Config} {k str : Nat} {p : Int} {pre post : List Slot} {sl : Slot}
    (hpre : ∀ x ∈ pre, x.order ≠ k) (hsl : sl.order = k) :
    updateSlot cfg k str p (pre ++ sl :: post) =
      some (pre ++ { sl with str := str, hph := p, htk := ticksOf cfg p } :: post) :=
  setFirst_append (fun x hx => decide_eq_false (hpre x hx)) (decide_eq_true hsl)

theorem empty_eq_true_iff {sl : Slot} : sl.empty = true ↔ sl.order = 0 ∨ sl.str = 0 := by
  simp [Slot.empty]

theorem empty_eq_false_iff {sl : Slot} : sl.empty = false ↔ sl.order ≠ 0 ∧ sl.str ≠ 0 := by
  simp [Slot.empty]

/-- The claim takes the first empty slot (R113). -/
theorem claimSlot_append {cfg : Config} {k str : Nat} {p : Int} {pre post : List Slot} {sl : Slot}
    (hpre : ∀ x ∈ pre, x.order ≠ 0 ∧ x.str ≠ 0) (hsl : sl.order = 0 ∨ sl.str = 0) :
    claimSlot cfg k str p (pre ++ sl :: post) = some (pre ++ ⟨k, str, p, ticksOf cfg p⟩ :: post) :=
  setFirst_append (fun x hx => empty_eq_false_iff.mpr (hpre x hx)) (empty_eq_true_iff.mpr hsl)

/-- There is nothing to claim exactly when no slot is empty. -/
theorem claimSlot_eq_none {cfg : Config} {k str : Nat} {p : Int} {bank : List Slot} :
    claimSlot cfg k str p bank = none ↔ ∀ x ∈ bank, x.order ≠ 0 ∧ x.str ≠ 0 := by
  simp only [claimSlot, setFirst_eq_none, empty_eq_false_iff]

/-! The active count (R111) -/

theorem countActive_eq_length (s : State) :
    s.countActive = (s.chA.bank.filter Slot.active).length + (s.chB.bank.filter Slot.active).length :=
  congrArg₂ (· + ·) (activeCount_eq_length s.chA.bank) (activeCount_eq_length s.chB.bank)

@[simp] theorem setResult_countActive (s : State) (code : Code) : (s.setResult code).countActive = s.countActive := rfl

theorem active_of_three_le_order {sl : Slot} (h : 3 ≤ sl.order) : sl.active = decide (0 < sl.str) := by
  simp [Slot.active, h]

/-- Putting a slot in the place of an inactive one of the same bank. -/
theorem activeCount_replaceInactive {pre post : List Slot} {sl sl' : Slot} (hsl : sl.active = false) :
    activeCount (pre ++ sl' :: post) = activeCount (pre ++ sl :: post) + if sl'.active then 1 else 0 := by
  simp only [activeCount, List.countP_append, List.countP_cons, hsl, Bool.false_eq_true, if_false]
  omega

/-- The other channel's share of the count stays. -/
theorem countActive_setBank {s : State} {c : Chan} {bank : List Slot} {n : Nat}
    (h : activeCount bank = activeCount (s.chan c).bank + n) : (s.setBank c bank).countActive = s.countActive + n := by
  cases c with
  | A => exact (congrArg (· + activeCount s.chB.bank) h).trans (Nat.add_right_comm ..)
  | B => exact (congrArg (activeCount s.chA.bank + ·) h).trans (Nat.add_assoc ..).symm

/-- A slot of a valid order in the place of an inactive one is active exactly when its strength is above 0. -/
theorem countActive_replaceInactive {s : State} {c : Chan} {pre post : List Slot} {sl sl' : Slot}
    (hbank : (s.chan c).bank = pre ++ sl :: post) (hsl : sl.active = false) (horder : 3 ≤ sl'.order) :
    (s.setBank c (pre ++ sl' :: post)).countActive = s.countActive + if 0 < sl'.str then 1 else 0 := by
  refine countActive_setBank ?_
  rw [hbank, activeCount_replaceInactive hsl, active_of_three_le_order horder]
  simp only [decide_eq_true_eq]

/-! WR_HARM (R110) -/

section WrHarm

variable {s : State} {c : Chan} {bank : List Slot}

theorem exec_wrHarm_of_operandsOk (hop : harmOperandsOk s.a0 s.a1 = true) :
    exec (.wrHarm c) s = .next (writeHarm c s.a0.toNat s.a1.toNat s.a2 s) := if_pos hop

theorem exec_wrHarm_of_not_operandsOk (hop : ¬ harmOperandsOk s.a0 s.a1 = true) :
    exec (.wrHarm c) s = .next (s.setResult .rejectRange) := if_neg hop

theorem exec_wrHarm_update (hop : harmOperandsOk s.a0 s.a1 = true)
    (hu : updateSlot s.cfg s.a0.toNat s.a1.toNat s.a2 (s.chan c).bank = some bank) :
    exec (.wrHarm c) s = .next ((s.setBank c bank).setResult .ok) := by
  rw [exec_wrHarm_of_operandsOk hop, writeHarm, hu]

theorem exec_wrHarm_claim (hop : harmOperandsOk s.a0 s.a1 = true)
    (hu : updateSlot s.cfg s.a0.toNat s.a1.toNat s.a2 (s.chan c).bank = none)
    (hbudget : s.countActive < s.cfg.hcap)
    (hcl : claimSlot s.cfg s.a0.toNat s.a1.toNat s.a2 (s.chan c).bank = some bank) :
    exec (.wrHarm c) s = .next ((s.setBank c bank).setResult .ok) := by
  simp only [exec_wrHarm_of_operandsOk hop, writeHarm, hu, hcl, if_neg (not_le.mpr hbudget)]

theorem exec_wrHarm_rejectCapacity (hop : harmOperandsOk s.a0 s.a1 = true)
    (hu : updateSlot s.cfg s.a0.toNat s.a1.toNat s.a2 (s.chan c).bank = none)
    (hfull : s.cfg.hcap ≤ s.countActive ∨
      claimSlot s.cfg s.a0.toNat s.a1.toNat s.a2 (s.chan c).bank = none) :
    exec (.wrHarm c) s = .next (s.setResult .rejectCapacity) := by
  rw [exec_wrHarm_of_operandsOk hop, writeHarm, hu]
  obtain hbudget | hcl := hfull
  · exact congrArg _ (if_pos hbudget)
  · simp only [hcl, ite_self]

/-- With no slot to update, RESULT = OK tells that a slot was claimed under the budget. -/
theorem exec_wrHarm_ok_of_fresh {t : State} (hop : harmOperandsOk s.a0 s.a1 = true)
    (hu : updateSlot s.cfg s.a0.toNat s.a1.toNat s.a2 (s.chan c).bank = none)
    (h : exec (.wrHarm c) s = .next t) (hok : t.result = .ok) :
    s.countActive < s.cfg.hcap ∧
      ∃ bank, claimSlot s.cfg s.a0.toNat s.a1.toNat s.a2 (s.chan c).bank = some bank ∧
        t = (s.setBank c bank).setResult .ok := by
  rw [exec_wrHarm_of_operandsOk hop, Host.Outcome.next.injEq] at h
  subst h
  obtain ⟨bank, hsome, -⟩ | ⟨-, hbudget, hclaim⟩ | ⟨-, -, hw⟩ :=
    writeHarm_cases c s.a0.toNat s.a1.toNat s.a2 s
  · simp [hu] at hsome
  · exact ⟨hbudget, hclaim⟩
  · simp [hw] at hok

end WrHarm

/-- Settles O24: the update of the first slot of the order comes before the budget is looked at. -/
theorem wrHarmUpdatesInPlace : Obligations.WrHarmUpdatesInPlace := by
  intro s c pre post sl hk hodd hstr hstr' hbank hpre hsl
  have hop : harmOperandsOk s.a0 s.a1 = true := harmOperandsOk_iff.mpr ⟨hk, hodd, hstr, hstr'⟩
  have hu := updateSlot_append (cfg := s.cfg) (str := s.a1.toNat) (p := s.a2) (post := post)
    (order_ne_toNat hk hpre) (show sl.order = s.a0.toNat from congrArg Int.toNat hsl)
  rw [← hbank] at hu
  rw [exec_wrHarm_update hop hu, setBank_setResult]
  rfl

/-- Settles O25: no slot has the order, so the first empty one is claimed. -/
theorem wrHarmClaimsLowestEmptySlot : Obligations.WrHarmClaimsLowestEmptySlot := by
  intro s c pre post sl hk hodd hstr hstr' hfresh hbudget hbank hpre hsl
  have hop : harmOperandsOk s.a0 s.a1 = true := harmOperandsOk_iff.mpr ⟨hk, hodd, hstr, hstr'⟩
  have hcl := claimSlot_append (cfg := s.cfg) (k := s.a0.toNat) (str := s.a1.toNat) (p := s.a2) (post := post) hpre hsl
  rw [← hbank] at hcl
  rw [← countActive_eq_length] at hbudget
  rw [exec_wrHarm_claim hop (updateSlot_eq_none.mpr (order_ne_toNat hk hfresh)) hbudget hcl, setBank_setResult]
  rfl

/-- Settles O26: the full budget and the full bank are the two grounds of REJECT_CAPACITY. -/
theorem wrHarmRejectsForCapacity : Obligations.WrHarmRejectsForCapacity := by
  intro s c hk hodd hstr hstr' hfresh hfull
  rw [← countActive_eq_length] at hfull
  exact exec_wrHarm_rejectCapacity (harmOperandsOk_iff.mpr ⟨hk, hodd, hstr, hstr'⟩)
    (updateSlot_eq_none.mpr (order_ne_toNat hk hfresh)) (hfull.imp_right claimSlot_eq_none.mpr)

/-- Settles O48: the claimed slot was empty, hence inactive, and the count was below HCAP before. -/
theorem claimKeepsBudget : Obligations.ClaimKeepsBudget := by
  intro s t c hfresh h hok
  by_cases hop : harmOperandsOk s.a0 s.a1 = true
  · obtain ⟨hk, -, -, -⟩ := harmOperandsOk_iff.mp hop
    obtain ⟨hbudget, bank, hcl, rfl⟩ :=
      exec_wrHarm_ok_of_fresh hop (updateSlot_eq_none.mpr (order_ne_toNat hk hfresh)) h hok
    obtain ⟨pre, sl, post, hbank, rfl, hempty, -⟩ := claimSlot_eq_some hcl
    have hcount := countActive_replaceInactive (sl' := ⟨s.a0.toNat, s.a1.toNat, s.a2, ticksOf s.cfg s.a2⟩)
      hbank (not_active_of_empty hempty) (by simp only; omega)
    simp only [Int.lt_toNat, Nat.cast_zero] at hcount
    rw [setResult_countActive, setResult_cfg, setBank_cfg, hcount]
    refine ⟨?_, rfl⟩
    split <;> omega
  · rw [exec_wrHarm_of_not_operandsOk hop, Host.Outcome.next.injEq] at h
    simp [← h] at hok

/-- Settles O49: a slot of strength 0 is inactive, and the update in place makes it active. -/
theorem reactivationIgnoresBudget : Obligations.ReactivationIgnoresBudget := by
  intro s c pre post sl hk hodd hstr hstr' hbank hpre hsl hzero
  have hsilent : sl.active = false := not_active_of_empty (empty_eq_true_iff.mpr (.inr hzero))
  have hcount := countActive_replaceInactive
    (sl' := { sl with str := s.arg1.toInt.toNat, hph := s.arg2.toInt, htk := ticksOf s.cfg s.arg2.toInt })
    hbank hsilent (by simp only; omega)
  rw [if_pos (Int.lt_toNat.mpr hstr)] at hcount
  refine ⟨_, wrHarmUpdatesInPlace s c pre post sl hk hodd hstr.le hstr' hbank hpre hsl, by simp, ?_⟩
  rw [← setBank_setResult, setResult_countActive, hcount]

/-- Settles O23: these are the operands that the validation of R110 refuses. -/
theorem wrHarmRejectsBadOperands : Obligations.WrHarmRejectsBadOperands := by
  intro s c hbad
  refine exec_wrHarm_of_not_operandsOk fun hop => ?_
  obtain ⟨hk, hodd, hstr, hstr'⟩ : 3 ≤ s.arg0.toInt ∧ s.arg0.toInt % 2 = 1 ∧ 0 ≤ s.arg1.toInt ∧ s.arg1.toInt ≤ 1000 :=
    harmOperandsOk_iff.mp hop
  omega

/-! RD_HARM and CLR_HARM -/

section RdHarm

variable {s : State} {c : Chan}

theorem exec_rdHarm_found {sl : Slot} (h : nthActive (s.chan c).bank s.a0 = some sl) :
    exec (.rdHarm c) s = .next ((s.writeRes (u32 sl.order) (u32 sl.str) (u32 sl.hph)
      (u32 (activeSlots (s.chan c).bank).length)).setResult .ok) := by
  rw [exec, execRdHarm, h]

theorem exec_rdHarm_notFound (h : nthActive (s.chan c).bank s.a0 = none) :
    exec (.rdHarm c) s = .next ((s.writeRes 0 0 0 (u32 (activeSlots (s.chan c).bank).length)).setResult .notFound) := by
  rw [exec, execRdHarm, h]

end RdHarm

theorem nthActive_of_nonneg {bank : List Slot} {k : Int} (hk : 0 ≤ k) :
    nthActive bank k = (activeSlots bank)[k.toNat]? := if_pos hk

/-- An index names no active slot exactly when it is negative or past the end of the list (R116). -/
theorem nthActive_eq_none {bank : List Slot} {k : Int} :
    nthActive bank k = none ↔ k < 0 ∨ ((activeSlots bank).length : Int) ≤ k := by
  rcases lt_or_ge k 0 with hk | hk
  · exact iff_of_true (if_neg (not_le.mpr hk)) (.inl hk)
  · rw [nthActive_of_nonneg hk, List.getElem?_eq_none_iff]
    omega

theorem u32_natCast (n : Nat) : u32 n = BitVec.ofNat 32 n := BitVec.ofInt_natCast 32 n

/-- Settles O27: the index names a slot of the list of active slots, or none. -/
theorem rdHarmListsActiveSlots : Obligations.RdHarmListsActiveSlots := by
  intro s c
  refine ⟨fun sl hk hsl => ?_, fun hk => ?_⟩
  · rw [exec_rdHarm_found ((nthActive_of_nonneg hk).trans hsl), u32_natCast, u32_natCast, u32_natCast]
    rfl
  · rw [exec_rdHarm_notFound (nthActive_eq_none.mpr hk), u32_natCast]
    rfl

/-- Settles O28: mapping every slot to the cleared one is a bank of cleared slots of the same length. -/
theorem clrHarmClearsBank : Obligations.ClrHarmClearsBank := by
  intro s c
  have hbank : (s.chan c).bank.map (fun _ => Slot.cleared) = List.replicate (s.chan c).bank.length ⟨0, 0, 0, 0⟩ :=
    List.map_const' ..
  rw [exec, execClrHarm, hbank, setBank_setResult]

end Sys2Proof.Machine

/-! SUPPORT. The channel parameter commands as equations (42_channel_commands.md R130 to R136). -/

namespace Sys2Proof.Machine

/-! Operands -/

/-- A signed 32-bit value survives its encoding (00_scope.md R5). -/
theorem sext32_u32 {v : Int} (hlo : -2 ^ 31 ≤ v) (hhi : v < 2 ^ 31) : sext32 (u32 v) = v :=
  BitVec.toInt_ofInt_eq_self (by norm_num) hlo hhi

/-- R8's clamp as a minimum of a maximum, which it is where the bounds are in order. -/
theorem clamp_eq_min_max {lo hi : Int} (h : lo ≤ hi) (x : Int) : clamp x lo hi = min (max x lo) hi := by
  unfold clamp
  split_ifs with hlow hhigh
  · rw [max_eq_right hlow.le, min_eq_left h]
  · rw [max_eq_left (not_lt.mp hlow), min_eq_right hhigh.le]
  · rw [max_eq_left (not_lt.mp hlow), min_eq_left (not_lt.mp hhigh)]

/-! The commands -/

/-- The write of RESULT and the write of a channel's registers commute. -/
theorem setChan_setResult (s : State) (c : Chan) (ch : Channel) (code : Code) :
    (s.setChan c ch).setResult code = State.setChan { s with result := code } c ch := by
  cases c <;> rfl

/-- `WR_FREQ` of a frequency in range (R130). -/
theorem exec_wrFreq_of_mem {s : State} (c : Chan)
    (h : (s.cfg.minFreq : Int) ≤ s.a0 ∧ s.a0 ≤ s.cfg.maxFreq) : exec (.wrFreq c) s =
    .next ((s.setChan c { s.chan c with freq := s.a0.toNat, step := stepOf s.cfg s.a0.toNat }).setResult .ok) :=
  if_neg (not_or.mpr ⟨not_lt.mpr h.1, not_lt.mpr h.2⟩)

theorem exec_rdFreq (s : State) (c : Chan) : exec (.rdFreq c) s =
    .next ((s.writeRes (u32 (s.chan c).freq) (u32 (s.chan c).step) 0 0).setResult .ok) := rfl

theorem exec_wrPhase (s : State) (c : Chan) : exec (.wrPhase c) s =
    .next ((s.setChan c { s.chan c with
      phase := clamp s.a0 (-3600) 3600
      off := ticksOf s.cfg (clamp s.a0 (-3600) 3600) }).setResult .ok) := rfl

theorem exec_rdPhase (s : State) (c : Chan) : exec (.rdPhase c) s =
    .next ((s.writeRes (u32 (s.chan c).phase) (u32 (s.chan c).off) 0 0).setResult .ok) := rfl

theorem exec_wrAmp (s : State) (c : Chan) : exec (.wrAmp c) s =
    .next ((s.setChan c { s.chan c with
      ampTgt := (clamp s.a0 0 1000).toNat * (s.cfg.ampFull / 1000) }).setResult .ok) := rfl

theorem exec_rdAmp (s : State) (c : Chan) : exec (.rdAmp c) s =
    .next ((s.writeRes (u32 (s.chan c).ampCur) (u32 (s.chan c).ampTgt) 0 0).setResult .ok) := rfl

/-- Settles O19: the range check of R130 either passes, or fails and only RESULT is written. -/
theorem wrFreqSetsOrRejects : Obligations.WrFreqSetsOrRejects := by
  intro s c
  refine ⟨fun hin => ?_, fun hout => if_pos hout⟩
  rw [exec_wrFreq_of_mem c hin, setChan_setResult]
  rfl

/-- Settles O20: the natural registers are encoded without a sign, PHASE in two's complement. -/
theorem parameterReadResults : Obligations.ParameterReadResults := by
  intro s c
  rw [exec_rdFreq, exec_rdPhase, exec_rdAmp]
  simp only [u32_natCast]
  exact ⟨rfl, rfl, rfl⟩

/-- Settles O21: the clamp of R133 as a minimum and a maximum. -/
theorem wrPhaseClampsAndSets : Obligations.WrPhaseClampsAndSets := by
  intro s c
  rw [exec_wrPhase, clamp_eq_min_max (by norm_num), setChan_setResult]
  rfl

/-- Settles O22: the clamp of R135 as a minimum and a maximum. -/
theorem wrAmpClampsAndSetsTarget : Obligations.WrAmpClampsAndSetsTarget := by
  intro s c
  rw [exec_wrAmp, clamp_eq_min_max (by norm_num), setChan_setResult]
  rfl

end Sys2Proof.Machine

/-! SUPPORT. The amplitude under a run of ticks (43_synthesizer_tick.md R150), and the round trips of
95_test_vectors.md S6. -/

namespace Sys2Proof.Machine

/-! The ramp -/

/-- One tick brings the amplitude nearer to its target by the ramp step, if it is that far away. -/
theorem abs_sub_rampTo_le {r tgt cur : Nat} {rest : Int} (hrest : 0 ≤ rest) (h : |(tgt : Int) - cur| ≤ rest + r) :
    |(tgt : Int) - rampTo r tgt cur| ≤ rest := by
  rw [abs_le] at h ⊢
  obtain ⟨hup, hr⟩ | ⟨hdown, hr⟩ | ⟨-, -, hr⟩ := rampTo_cases r tgt cur <;> rw [hr] <;> omega

/-- A ramp that is given enough ticks ends at the target. -/
theorem rampTo_iterate_eq {r tgt : Nat} (k : Nat) {cur : Nat} (h : |(tgt : Int) - cur| ≤ (k * r : Nat)) :
    (rampTo r tgt)^[k] cur = tgt := by
  induction k generalizing cur with
  | zero =>
    have hzero : |(tgt : Int) - cur| ≤ 0 := by simpa using h
    have heq : (tgt : Int) - cur = 0 := abs_nonpos_iff.mp hzero
    rw [Function.iterate_zero_apply]
    omega
  | succ k ih =>
    rw [Nat.succ_mul, Nat.cast_add] at h
    exact ih (abs_sub_rampTo_le (Int.natCast_nonneg _) h)

/-- A tick ramps the amplitude of each channel, whether or not its sync step resyncs the channel. -/
theorem tick_amp (s : State) (c : Chan) :
    ((syncStep s.sampled).chan c).ampTgt = (s.chan c).ampTgt ∧
    ((syncStep s.sampled).chan c).ampCur = rampTo s.cfg.rampStep (s.chan c).ampTgt (s.chan c).ampCur := by
  obtain h | h := syncStep_chan s.sampled c <;> rw [h, sampled_chan] <;> exact ⟨rfl, rfl⟩

/-- A run of ticks completes, and on each channel it keeps the target and iterates the ramp. -/
theorem exists_execTicks_amp (k : Nat) (s : State) :
    ∃ t, execTicks k s = .next t ∧ ∀ c : Chan, (t.chan c).ampTgt = (s.chan c).ampTgt ∧
      (t.chan c).ampCur = (rampTo s.cfg.rampStep (s.chan c).ampTgt)^[k] (s.chan c).ampCur := by
  induction k generalizing s with
  | zero => exact ⟨s, rfl, fun c => ⟨rfl, rfl⟩⟩
  | succ k ih =>
    obtain ⟨t, ht, hamp⟩ := ih (syncStep s.sampled)
    refine ⟨t, by rw [execTicks_succ, exec_tick, chain_next, ht], fun c => ?_⟩
    have hcfg : (syncStep s.sampled).cfg = s.cfg := (exec_cfg_inputs (exec_tick s)).1
    obtain ⟨htgt, hcur⟩ := tick_amp s c
    rw [Function.iterate_succ_apply, ← hcur, ← htgt, ← hcfg]
    exact hamp c

/-- After enough ticks the amplitude is the target, on a channel that is that near to it. -/
theorem exists_execTicks_settled (k : Nat) (s : State) (c : Chan)
    (h : |((s.chan c).ampTgt : Int) - (s.chan c).ampCur| ≤ (k * s.cfg.rampStep : Nat)) :
    ∃ t, execTicks k s = .next t ∧ (t.chan c).ampTgt = (s.chan c).ampTgt ∧
      (t.chan c).ampCur = (s.chan c).ampTgt := by
  obtain ⟨t, ht, hamp⟩ := exists_execTicks_amp k s
  obtain ⟨htgt, hcur⟩ := hamp c
  exact ⟨t, ht, htgt, hcur.trans (rampTo_iterate_eq k h)⟩

/-! The round trips -/

section RoundTrips

variable {s : State} (c : Chan)

theorem freq_roundTrip {f : Nat} (harg : s.a0 = f) (hmin : s.cfg.minFreq ≤ f) (hmax : f ≤ s.cfg.maxFreq) :
    ∃ t, execAll [.wrFreq c, .rdFreq c] s = .next t ∧
      t.result = .ok ∧ t.res0 = u32 f ∧ t.res1 = u32 (stepOf s.cfg f) := by
  have hwrite := exec_wrFreq_of_mem (s := s) c (by omega)
  rw [harg, Int.toNat_natCast] at hwrite
  simp [hwrite, exec_rdFreq]

theorem phase_roundTrip {p : Int} (harg : s.a0 = p) (hlo : -3600 ≤ p) (hhi : p ≤ 3600) :
    ∃ t, execAll [.wrPhase c, .rdPhase c] s = .next t ∧
      t.result = .ok ∧ sext32 t.res0 = p ∧ t.res1 = u32 (ticksOf s.cfg p) := by
  have hwrite := exec_wrPhase s c
  rw [harg, clamp_eq_self hlo hhi] at hwrite
  simp [hwrite, exec_rdPhase, sext32_u32 (v := p) (by omega) (by omega)]

/-- WR_AMP sets the target only, the ticks bring the amplitude to it, and RD_AMP reads both. -/
theorem amp_roundTrip {a k : Nat} (harg : s.a0 = a) (ha : a ≤ 1000)
    (hk : |((a * (s.cfg.ampFull / 1000) : Nat) : Int) - (s.chan c).ampCur| ≤ (k * s.cfg.rampStep : Nat)) :
    ∃ t, execAll (.wrAmp c :: (List.replicate k .tick ++ [.rdAmp c])) s = .next t ∧
      t.result = .ok ∧ t.res0 = u32 (a * (s.cfg.ampFull / 1000) : Nat) ∧ t.res1 = t.res0 := by
  have hwrite := exec_wrAmp s c
  rw [harg, clamp_eq_self (by omega) (by omega), Int.toNat_natCast] at hwrite
  obtain ⟨u, hticks, htgt, hcur⟩ := exists_execTicks_settled k
    ((s.setChan c { s.chan c with ampTgt := a * (s.cfg.ampFull / 1000) }).setResult .ok) c (by simpa using hk)
  rw [execTicks] at hticks
  rw [execAll_cons, hwrite, chain_next, execAll_append, hticks]
  simp [exec_rdAmp, htgt, hcur]

end RoundTrips

/-- Settles O59: every value in range fits a signed 32-bit operand, so each round trip starts from the value written. -/
theorem parameterRoundTrips : Obligations.ParameterRoundTrips := by
  intro s c
  refine ⟨fun f hmin hmax hf => ?freq, fun p hlo hhi => ?phase, fun a k ha hk => ?amp⟩
  case freq => exact freq_roundTrip c (sext32_u32 (by omega) (by omega)) hmin hmax
  case phase => exact phase_roundTrip c (sext32_u32 (by omega) (by omega)) hlo hhi
  case amp => exact amp_roundTrip c (sext32_u32 (by omega) (by omega)) ha hk

end Sys2Proof.Machine

/-! SUPPORT. The linear ramp in closed form (43_synthesizer_tick.md R150). -/

namespace Sys2Proof.Machine

section Ramp

variable {tgt cur : Nat} (r : Nat)

/-- Below its target the amplitude moves up and stops there. -/
theorem rampTo_of_le (h : cur ≤ tgt) : rampTo r tgt cur = min tgt (cur + r) := by
  obtain ⟨hup, hr⟩ | ⟨hdown, hr⟩ | ⟨hlo, hhi, hr⟩ := rampTo_cases r tgt cur <;> omega

/-- Above its target the amplitude moves down and stops there. -/
theorem rampTo_of_ge (h : tgt ≤ cur) : rampTo r tgt cur = max tgt (cur - r) := by
  obtain ⟨hup, hr⟩ | ⟨hdown, hr⟩ | ⟨hlo, hhi, hr⟩ := rampTo_cases r tgt cur <;> omega

theorem iterate_rampTo_of_le (k : Nat) (h : cur ≤ tgt) : (rampTo r tgt)^[k] cur = min tgt (cur + k * r) := by
  induction k with
  | zero => simp [h]
  | succ k ih =>
    rw [Function.iterate_succ_apply', ih, rampTo_of_le r (min_le_left ..), Nat.succ_mul]
    omega

theorem iterate_rampTo_of_ge (k : Nat) (h : tgt ≤ cur) : (rampTo r tgt)^[k] cur = max tgt (cur - k * r) := by
  induction k with
  | zero => simp [h]
  | succ k ih =>
    rw [Function.iterate_succ_apply', ih, rampTo_of_ge r (le_max_left ..), Nat.succ_mul]
    omega

end Ramp

/-- Settles O31: a run of ticks iterates the ramp, which has a closed form on each side of the target. -/
theorem rampReachesTargetOnTime : Obligations.RampReachesTargetOnTime := by
  intro s k
  obtain ⟨t, ht, hamp⟩ := exists_execTicks_amp k s
  refine ⟨t, ht, fun c => ?_⟩
  obtain ⟨htgt, hcur⟩ := hamp c
  refine ⟨htgt, hcur.trans ?_⟩
  split
  case isTrue h => exact iterate_rampTo_of_le s.cfg.rampStep k h
  case isFalse h => exact iterate_rampTo_of_ge s.cfg.rampStep k (not_le.mp h).le

end Sys2Proof.Machine

/-! SUPPORT. The mixer against the rationals it computes with (43_synthesizer_tick.md R152 to R154). -/

namespace Sys2Proof.Machine

/-! The output (R154) -/

/-- Clamping to integer bounds and then truncating is truncating and then clamping. -/
theorem floor_clamp (lo hi : Int) (x : ℚ) : ⌊max (lo : ℚ) (min (hi : ℚ) x)⌋ = max lo (min hi ⌊x⌋) := by
  rw [Int.floor_mono.map_max, Int.floor_mono.map_min, Int.floor_intCast, Int.floor_intCast]

/-- The mixer tests the numerator where R154 clamps the quotient. -/
theorem mixOut_eq_clamp {ampFull : Nat} (h : 0 < ampFull) (a : Nat) (inner : Int) :
    (mixOut ampFull a inner : Int) =
      max 0 (min 255 ((a * inner + 255 * ampFull * 1000) / ((2 * ampFull * 1000 : Nat) : Int))) := by
  have hden : (0 : Int) < 2 * ampFull * 1000 := by omega
  unfold mixOut
  push_cast
  generalize (a : Int) * inner + 255 * ampFull * 1000 = num at *
  generalize (2 : Int) * ampFull * 1000 = den at *
  split
  case isTrue hneg =>
    have hquot : num / den < 0 := Int.ediv_neg_of_neg_of_pos hneg hden
    omega
  case isFalse hnonneg =>
    have hquot : 0 ≤ num / den := Int.ediv_nonneg (not_lt.mp hnonneg) hden.le
    split
    case isTrue hbig =>
      have hmax : 255 ≤ num / den := (Int.le_ediv_iff_mul_le hden).mpr hbig
      omega
    case isFalse hsmall =>
      have hlt : num / den < 255 := (Int.ediv_lt_iff_lt_mul hden).mpr (not_le.mp hsmall)
      omega

/-- The value R154 clamps is the quotient of two integers. -/
theorem mixed_eq_quotient {ampFull : Nat} (h : 0 < ampFull) (a : Nat) (inner : Int) :
    (inner : ℚ) / 255000 * ((a : ℚ) / ampFull) * (255 / 2) + 255 / 2 =
      ((a * inner + 255 * ampFull * 1000 : Int) : ℚ) / ((2 * ampFull * 1000 : Nat) : ℚ) := by
  have hfull : (ampFull : ℚ) ≠ 0 := by exact_mod_cast h.ne'
  push_cast
  field_simp
  ring

/-- Settles O33: the clamp commutes with the truncation, and the truncated quotient is an integer division. -/
theorem mixOutIsExactClamp : Obligations.MixOutIsExactClamp := by
  intro ampFull a inner h
  have hclamp := floor_clamp 0 255
    (((a * inner + 255 * ampFull * 1000 : Int) : ℚ) / ((2 * ampFull * 1000 : Nat) : ℚ))
  rw [Rat.floor_intCast_div_natCast] at hclamp
  rw [mixOut_eq_clamp h, mixed_eq_quotient h, ← hclamp]
  norm_num

/-! The sum (R152, R153) -/

/-- The mixer adds up the terms of the active slots. -/
theorem mixInner_eq_sum (n : Nat) (bank : List Slot) (pidx t : Nat) :
    mixInner n bank pidx t =
      (2 * (t : Int) - 255) * 1000 + ((bank.filter Slot.active).map (harmonicTerm n pidx)).sum := by
  unfold mixInner
  generalize (2 * (t : Int) - 255) * 1000 = fundamental
  induction bank generalizing fundamental with
  | nil => simp
  | cons sl bank ih =>
    rw [List.foldl_cons, ih]
    cases hact : sl.active <;> simp [hact, add_assoc]

/-- The normalised form of a sample `w` (R152), over the mixer's common denominator. -/
theorem sample_scaled (w : ℚ) : (w - 255 / 2) / (255 / 2) = (2 * w - 255) * 1000 / 255000 := by ring

/-- Settles O34: both sides are the fundamental and one term per active slot, and these agree one by one. -/
theorem mixInnerIsScaledSum : Obligations.MixInnerIsScaledSum := by
  intro n bank pidx t
  have hterm (sl : Slot) : (sl.str : ℚ) / 1000 *
      (((wsample n ((sl.order * pidx + sl.htk) % n : Nat) : ℚ) - 255 / 2) / (255 / 2)) =
        (harmonicTerm n pidx sl : ℚ) * (1 / 255000) := by
    rw [sample_scaled, harmonicTerm]
    push_cast
    ring
  simp only [hterm, List.sum_map_mul_right]
  rw [mixInner_eq_sum, sample_scaled]
  push_cast [Int.cast_list_sum, List.map_map, Function.comp_def]
  ring

end Sys2Proof.Machine

/-! SUPPORT. The phase accumulator (43_synthesizer_tick.md R156, R158). -/

namespace Sys2Proof.Machine

theorem iterate_advance {n acc : Nat} (step k : Nat) (h : acc < n) :
    (advance n step)^[k] acc = (acc + k * step) % n := by
  induction k with
  | zero => simp [Nat.mod_eq_of_lt h]
  | succ k ih => rw [Function.iterate_succ_apply', ih, advance, Nat.mod_add_mod, add_assoc, Nat.succ_mul]

/-- The multiples of `step` that vanish modulo `n`: `n / gcd(n, step)` is the additive order of `step`. -/
theorem dvd_mul_iff_div_gcd_dvd {n : Nat} (hn : n ≠ 0) (step k : Nat) :
    n ∣ k * step ↔ n / Nat.gcd n step ∣ k := by
  rw [← ZMod.addOrderOf_coe step hn, addOrderOf_dvd_iff_nsmul_eq_zero, nsmul_eq_mul, ← Nat.cast_mul,
    ZMod.natCast_eq_zero_iff]

/-- Settles O35: `k` advances add `k * step`, which is the identity where `n` divides it. -/
theorem accumulatorCycleLength : Obligations.AccumulatorCycleLength := by
  intro n step acc k h
  rw [iterate_advance step k h, ← dvd_mul_iff_div_gcd_dvd (Nat.ne_zero_of_lt h)]
  calc (acc + k * step) % n = acc
    _ ↔ acc + k * step ≡ acc [MOD n] := by rw [Nat.ModEq, Nat.mod_eq_of_lt h]
    _ ↔ n ∣ k * step := Nat.add_modEq_left_iff

end Sys2Proof.Machine

/-! SUPPORT. The sync step's registers in one equation each (44_sync_controller.md R172). -/

namespace Sys2Proof.Machine

theorem syncStep_level (s : State) :
    (syncStep s).level = if periodOf s.cfg s.chA.freq ≤ s.elapsed + 1 then !s.level else s.level := by
  obtain ⟨hlt, h⟩ | ⟨hle, hl, h⟩ | ⟨hle, hl, h⟩ := syncStep_cases s
  · simp [h, not_le.mpr hlt]
  · simp [h, hle, hl]
  · simp [h, hle, hl]

theorem syncStep_elapsed (s : State) :
    (syncStep s).elapsed = if periodOf s.cfg s.chA.freq ≤ s.elapsed + 1 then 0 else s.elapsed + 1 := by
  obtain ⟨hlt, h⟩ | ⟨hle, -, h⟩ | ⟨hle, -, h⟩ := syncStep_cases s
  · simp [h, not_le.mpr hlt]
  · simp [h, hle]
  · simp [h, hle]

/-- The accumulators are reloaded where LEVEL rises, and only there (R170). -/
theorem syncStep_chan_eq (s : State) (c : Chan) :
    (syncStep s).chan c = { s.chan c with
      acc := if periodOf s.cfg s.chA.freq ≤ s.elapsed + 1 ∧ s.level = false then (s.chan c).off
        else (s.chan c).acc } := by
  obtain ⟨hlt, h⟩ | ⟨hle, hl, h⟩ | ⟨hle, hl, h⟩ := syncStep_cases s
  · simp only [h, not_le.mpr hlt, false_and, if_false]
    cases c <;> rfl
  · simp only [h, hl, Bool.true_eq_false, and_false, if_false]
    cases c <;> rfl
  · simp only [h, hle, hl, and_self, if_true]
    cases c <;> rfl

/-- Settles O29: a TICK is the samples of both channels and then the sync step, which reads the registers the samples
leave unchanged. -/
theorem tickEffect : Obligations.TickEffect := by
  intro s
  refine ⟨syncStep s.sampled, exec_tick s, fun c => ?_, ?_⟩
  · rw [syncStep_chan_eq, sampled_chan]
    rfl
  · have hframe := syncStep_frame s.sampled
    rw [syncStep_level, syncStep_elapsed] at hframe
    exact hframe

end Sys2Proof.Machine

/-! SUPPORT. EDGE and the sync step as whole events (44_sync_controller.md R171, R173, R177). -/

namespace Sys2Proof.Machine

/-- An EDGE finds nothing to change in a state whose level has just risen, whatever event raised it (R177). -/
theorem exec_edge_of_raised (s : State) :
    exec .edge (State.resync { s with level := true, elapsed := 0 }) =
      .next (State.resync { s with level := true, elapsed := 0 }) := rfl

/-- Settles O30: the effect is the definition of EDGE, and the second EDGE meets a level that has just risen. -/
theorem edgeEffect : Obligations.EdgeEffect := by
  intro s
  refine ⟨exec_edge s, ?_⟩
  rw [execAll_cons, exec_edge, chain_next, execAll_cons, exec_edge_of_raised, chain_next, execAll_nil]

/-- Settles O39: the sync step's level and count are given by LEVEL, ELAPSED and FREQ[A], on which channel B's samples do
not bear. -/
theorem channelBNeverAffectsSync : Obligations.ChannelBNeverAffectsSync := by
  intro s ch
  refine ⟨_, _, exec_tick s, exec_tick _, ?level, ?elapsed⟩
  case level =>
    rw [syncStep_level, syncStep_level]
    rfl
  case elapsed =>
    rw [syncStep_elapsed, syncStep_elapsed]
    rfl

/-- Settles O38: of the three ways a sync step can go, only the rising toggle takes a low level to a high one. -/
theorem edgeAfterRisingToggleChangesNothing : Obligations.EdgeAfterRisingToggleChangesNothing := by
  intro s t hlow htick hhigh
  obtain rfl : syncStep s.sampled = t := Host.Outcome.next.inj htick
  obtain ⟨-, hcount⟩ | ⟨-, hlevel, -⟩ | ⟨-, -, hrise⟩ := syncStep_cases s.sampled
  · rw [hcount] at hhigh
    exact absurd (hlow.symm.trans hhigh) Bool.false_ne_true
  · exact absurd (hlow.symm.trans hlevel) Bool.false_ne_true
  · rw [hrise]
    exact exec_edge_of_raised _

end Sys2Proof.Machine

/-! SUPPORT. What each phase of a cycle does to the two port registers EDGE_PREV and DAC_STB (43_synthesizer_tick.md R155,
44_sync_controller.md R174), and the edge that ends a cycle (60_exceptions.md R205). -/

namespace Sys2Proof.Machine

/-- No instruction writes EDGE_PREV, and only TICK writes DAC_STB. -/
theorem exec_edgePrev_dacStb {i : Instr} {s t : State} (h : exec i s = .next t) :
    t.edgePrev = s.edgePrev ∧ t.dacStb = (decide (i = .tick) || s.dacStb) := by
  obtain ⟨c, hc, heff⟩ | ⟨rfl, rfl⟩ | ⟨rfl, rfl⟩ := exec_cases h
  · have hne : i ≠ .tick := by
      rintro rfl
      exact Option.some_ne_none c hc.symm
    rw [heff.frame]
    simp [hne]
  · rw [syncStep_frame]
    exact ⟨rfl, rfl⟩
  · exact ⟨rfl, rfl⟩

/-- No CMD word is a TICK (30_encoding.md R87). -/
theorem ne_tick_of_decode {w : Word} {i : Instr} (h : decode w = .ok i) : i ≠ .tick := by
  rintro rfl
  exact Option.some_ne_none w (encode_of_decode h).symm

theorem hostAccess_edgePrev_dacStb {p : PortsIn} {s t : State} (h : hostAccess p s = .next t) :
    t.edgePrev = s.edgePrev ∧ t.dacStb = s.dacStb := by
  obtain ⟨-, -, rfl⟩ | ⟨-, -, -, hw⟩ | ⟨-, -, -, rfl⟩ := hostAccess_next h
  · exact ⟨rfl, rfl⟩
  · obtain rfl | rfl | rfl | ⟨-, i, hdec, hexec⟩ | rfl | rfl := hostWrite_next hw
    case inr.inr.inr.inl => simpa [ne_tick_of_decode hdec] using exec_edgePrev_dacStb hexec
    all_goals exact ⟨rfl, rfl⟩
  · exact ⟨rfl, rfl⟩

theorem tickPhase_edgePrev_dacStb {p : PortsIn} {s t : State} (h : tickPhase p s = .next t) :
    t.edgePrev = s.edgePrev ∧ t.dacStb = (p.tickIn || s.dacStb) := by
  unfold tickPhase at h
  split at h
  case isTrue htick => simpa [htick] using exec_edgePrev_dacStb h
  case isFalse htick =>
    obtain rfl := Host.Outcome.next.inj h
    simp [htick]

theorem edgePhase_edgePrev_dacStb {fire : Bool} {s t : State} (h : edgePhase fire s = .next t) :
    t.edgePrev = s.edgePrev ∧ t.dacStb = s.dacStb := by
  unfold edgePhase at h
  split at h
  · simpa using exec_edgePrev_dacStb h
  · obtain rfl := Host.Outcome.next.inj h
    exact ⟨rfl, rfl⟩

/-- Settles O17: the cycle opens with EDGE_PREV sampled and DAC_STB low, only its TICK raises DAC_STB, and nothing else
writes the two. -/
theorem edgePrevSamplesSyncIn : Obligations.EdgePrevSamplesSyncIn := by
  intro s t h
  refine ⟨fun hrst => ?_, fun hrst => ?_⟩
  · obtain ⟨hr, -⟩ | ⟨-, u, v, htick, haccess, hedge⟩ := runCycle_next (step_next h).2
    · exact absurd (hrst.symm.trans hr) Bool.false_ne_true
    obtain ⟨huPrev, huStb⟩ := tickPhase_edgePrev_dacStb htick
    obtain ⟨hvPrev, hvStb⟩ := hostAccess_edgePrev_dacStb haccess
    obtain ⟨htPrev, htStb⟩ := edgePhase_edgePrev_dacStb hedge
    exact ⟨by rw [htPrev, hvPrev, huPrev, openCycle_edgePrev],
      by rw [htStb, hvStb, huStb, openCycle_dacStb, Bool.or_false]⟩
  · rw [step_of_rst h hrst]
    exact ⟨rfl, rfl⟩

/-- Settles O18: EDGE is the last event of the cycle, so its effect is what the cycle leaves. -/
theorem edgeWinsItsCycle : Obligations.EdgeWinsItsCycle := by
  intro s t hrst hsync hprev h
  obtain ⟨hr, -⟩ | ⟨-, u, v, -, -, hedge⟩ := runCycle_next (step_next h).2
  · exact absurd (hrst.symm.trans hr) Bool.false_ne_true
  have hfires : edgeFires (nextPorts s) { s with inputs := s.inputs.tail } = true := edgeFires_iff.mpr ⟨hsync, hprev⟩
  rw [hfires] at hedge
  obtain rfl : State.resync { v with level := true, elapsed := 0 } = t := Host.Outcome.next.inj hedge
  exact ⟨rfl, rfl, fun c => by rw [resync_chan, channel_resync_acc, channel_resync_off]⟩

end Sys2Proof.Machine

/-! SUPPORT. The state after any number of ticks from a low level (44_sync_controller.md R175): `q` whole periods and `r`
ticks of the next one. -/

namespace Sys2Proof.Machine

/-- The next tick counts on inside its period, or completes it. -/
theorem succ_div_mod_cases {P : Nat} (hP : 1 ≤ P) (k : Nat) :
    (k % P + 1 < P ∧ (k + 1) / P = k / P ∧ (k + 1) % P = k % P + 1) ∨
    (k % P + 1 = P ∧ (k + 1) / P = k / P + 1 ∧ (k + 1) % P = 0) := by
  have hk := Nat.mod_add_div k P
  obtain hlt | heq : k % P + 1 < P ∨ k % P + 1 = P := Nat.lt_or_eq_of_le (Nat.mod_lt k hP)
  · exact .inl ⟨hlt, (Nat.div_mod_unique hP).mpr ⟨by omega, hlt⟩⟩
  · exact .inr ⟨heq, (Nat.div_mod_unique hP).mpr ⟨by rw [Nat.mul_succ]; omega, hP⟩⟩

/-- A channel's accumulator `q` periods of `P` ticks and `r` ticks after it was `ch.acc`: it runs on from there in period
0, and from OFF since the last rise afterwards. Odd periods begin with a rise, even ones with a fall. -/
def timelineAcc (n P : Nat) (ch : Channel) (q r : Nat) : Nat :=
  if q = 0 then (ch.acc + r * ch.step) % n
  else (ch.off + (if q % 2 = 1 then r else P + r) * ch.step) % n

theorem advance_add_mul_mod (n step base m : Nat) :
    advance n step ((base + m * step) % n) = (base + (m + 1) * step) % n := by
  rw [advance, Nat.mod_add_mod, add_assoc, Nat.succ_mul]

section
variable {n P q r : Nat} {ch : Channel}

/-- Inside a period the accumulator advances. -/
theorem timelineAcc_succ : timelineAcc n P ch q (r + 1) = advance n ch.step (timelineAcc n P ch q r) := by
  unfold timelineAcc
  split_ifs <;> exact (advance_add_mul_mod ..).symm

/-- At the fall that ends an odd period it advances too. -/
theorem timelineAcc_fall (hq : q % 2 = 1) (hr : r + 1 = P) :
    timelineAcc n P ch (q + 1) 0 = advance n ch.step (timelineAcc n P ch q r) := by
  have hq0 : q ≠ 0 := by omega
  have hq' : ¬ (q + 1) % 2 = 1 := by omega
  rw [timelineAcc, timelineAcc, if_neg q.succ_ne_zero, if_neg hq', if_neg hq0, if_pos hq, advance_add_mul_mod, hr,
    add_zero]

/-- At the rise that ends an even period it is OFF. -/
theorem timelineAcc_rise (hoff : ch.off < n) (hq : q % 2 = 0) : timelineAcc n P ch (q + 1) 0 = ch.off := by
  have hq' : (q + 1) % 2 = 1 := by omega
  rw [timelineAcc, if_neg q.succ_ne_zero, if_pos hq', Nat.zero_mul, add_zero, Nat.mod_eq_of_lt hoff]

end

/-- `t` is where `q` periods and `r` ticks take `s`. -/
structure OnTimeline (s : State) (q r : Nat) (t : State) : Prop where
  cfg : t.cfg = s.cfg
  level : t.level = decide (q % 2 = 1)
  elapsed : t.elapsed = r
  kept : ∀ c, (t.chan c).freq = (s.chan c).freq ∧ (t.chan c).step = (s.chan c).step ∧ (t.chan c).off = (s.chan c).off
  acc : ∀ c, (t.chan c).acc = timelineAcc s.cfg.n (periodOf s.cfg s.chA.freq) (s.chan c) q r

namespace OnTimeline

variable {s t : State} {q r : Nat}

theorem start (hlevel : s.level = false) (helapsed : s.elapsed = 0) (hacc : ∀ c, (s.chan c).acc < s.cfg.n) :
    OnTimeline s 0 0 s where
  cfg := rfl
  level := hlevel
  elapsed := helapsed
  kept := fun _ => ⟨rfl, rfl, rfl⟩
  acc := fun c => by simp [timelineAcc, Nat.mod_eq_of_lt (hacc c)]

theorem period_eq (h : OnTimeline s q r t) : periodOf t.cfg t.chA.freq = periodOf s.cfg s.chA.freq :=
  congrArg₂ periodOf h.cfg (h.kept .A).1

/-- What a tick leaves of FREQ, STEP and OFF: all of them. -/
theorem tick_kept (h : OnTimeline s q r t) (c : Chan) :
    ((syncStep t.sampled).chan c).freq = (s.chan c).freq ∧
    ((syncStep t.sampled).chan c).step = (s.chan c).step ∧
    ((syncStep t.sampled).chan c).off = (s.chan c).off := by
  rw [syncStep_chan_eq, sampled_chan]
  exact h.kept c

/-- The accumulator after one more tick (R156, R170). -/
theorem tick_acc (h : OnTimeline s q r t) (c : Chan) :
    ((syncStep t.sampled).chan c).acc =
      if periodOf s.cfg s.chA.freq ≤ r + 1 ∧ q % 2 = 0 then (s.chan c).off
      else advance s.cfg.n (s.chan c).step (timelineAcc s.cfg.n (periodOf s.cfg s.chA.freq) (s.chan c) q r) := by
  obtain ⟨-, hstep, hoff⟩ := h.kept c
  calc ((syncStep t.sampled).chan c).acc
    _ = if periodOf t.cfg t.chA.freq ≤ t.elapsed + 1 ∧ t.level = false then (t.chan c).off
        else advance t.cfg.n (t.chan c).step (t.chan c).acc := by
      rw [syncStep_chan_eq, sampled_chan]
      rfl
    _ = _ := by
      rw [h.period_eq]
      simp only [h.elapsed, h.level, hoff, hstep, h.acc c, h.cfg, decide_eq_false_iff_not,
        Nat.mod_two_not_eq_one]

/-- A tick inside a period. -/
theorem tick_within (h : OnTimeline s q r t) (hr : r + 1 < periodOf s.cfg s.chA.freq) :
    OnTimeline s q (r + 1) (syncStep t.sampled) := by
  have hlt : ¬ periodOf t.cfg t.chA.freq ≤ t.elapsed + 1 := by
    rw [h.period_eq, h.elapsed]
    exact not_le.mpr hr
  refine ⟨?cfg, ?level, ?elapsed, h.tick_kept, fun c => ?acc⟩
  case cfg => exact (exec_cfg_inputs (exec_tick t)).1.trans h.cfg
  case level => exact (syncStep_level _).trans ((if_neg hlt).trans h.level)
  case elapsed => exact (syncStep_elapsed _).trans ((if_neg hlt).trans (congrArg (· + 1) h.elapsed))
  case acc => rw [h.tick_acc, if_neg fun hrise => hrise.1.not_gt hr, timelineAcc_succ]

/-- The tick that completes a period toggles the level (R172). -/
theorem tick_toggle (h : OnTimeline s q r t) (hr : r + 1 = periodOf s.cfg s.chA.freq)
    (hoff : ∀ c, (s.chan c).off < s.cfg.n) : OnTimeline s (q + 1) 0 (syncStep t.sampled) := by
  have hle : periodOf t.cfg t.chA.freq ≤ t.elapsed + 1 := by
    rw [h.period_eq, h.elapsed]
    exact hr.ge
  refine ⟨?cfg, ?level, ?elapsed, h.tick_kept, fun c => ?acc⟩
  case cfg => exact (exec_cfg_inputs (exec_tick t)).1.trans h.cfg
  case level =>
    have hodd : (!decide (q % 2 = 1)) = decide ((q + 1) % 2 = 1) := by
      rw [← decide_not, decide_eq_decide]
      omega
    exact (syncStep_level _).trans ((if_pos hle).trans ((congrArg (!·) h.level).trans hodd))
  case elapsed => exact (syncStep_elapsed _).trans (if_pos hle)
  case acc =>
    rw [h.tick_acc]
    obtain heven | hodd := Nat.mod_two_eq_zero_or_one q
    · rw [if_pos ⟨hr.ge, heven⟩, timelineAcc_rise (hoff c) heven]
    · rw [if_neg fun hrise => by omega, timelineAcc_fall hodd hr]

end OnTimeline

/-- One more tick at the end of a run of ticks. -/
theorem execTicks_succ_last (k : Nat) (s : State) : execTicks (k + 1) s = chain (execTicks k s) (exec .tick) := by
  have hlast : execAll [.tick] = exec .tick := funext fun u => chain_next_right (exec .tick u)
  rw [execTicks, List.replicate_succ', execAll_append, hlast, execTicks]

/-- A run of `k` ticks completes, `k / P` periods and `k % P` ticks on. -/
theorem exists_execTicks_onTimeline {s : State} (hlevel : s.level = false) (helapsed : s.elapsed = 0)
    (hP : 1 ≤ periodOf s.cfg s.chA.freq) (hch : ∀ c : Chan, (s.chan c).acc < s.cfg.n ∧ (s.chan c).off < s.cfg.n)
    (k : Nat) : ∃ t, execTicks k s = .next t ∧
      OnTimeline s (k / periodOf s.cfg s.chA.freq) (k % periodOf s.cfg s.chA.freq) t := by
  induction k with
  | zero =>
    rw [Nat.zero_div, Nat.zero_mod]
    exact ⟨s, rfl, .start hlevel helapsed fun c => (hch c).1⟩
  | succ k ih =>
    obtain ⟨t, ht, hline⟩ := ih
    refine ⟨syncStep t.sampled, by rw [execTicks_succ_last, ht, chain_next, exec_tick], ?_⟩
    obtain ⟨hr, hdiv, hmod⟩ | ⟨hr, hdiv, hmod⟩ := succ_div_mod_cases hP k <;> rw [hdiv, hmod]
    · exact hline.tick_within hr
    · exact hline.tick_toggle hr fun c => (hch c).2

/-- Settles O36: the timeline at `k / P` periods and `k % P` ticks; period 0 is `k < P`. -/
theorem tickTimelineFromLowLevel : Obligations.TickTimelineFromLowLevel := by
  intro s k hlevel helapsed hP hch
  obtain ⟨t, ht, hline⟩ := exists_execTicks_onTimeline hlevel helapsed hP hch k
  refine ⟨t, ht, hline.level, hline.elapsed, fun c => ?_⟩
  rw [hline.acc c, timelineAcc]
  by_cases hk : k < periodOf s.cfg s.chA.freq
  · rw [if_pos hk, if_pos (Nat.div_eq_of_lt hk), Nat.mod_eq_of_lt hk]
  · rw [if_neg hk, if_neg (Nat.div_pos (not_lt.mp hk) hP).ne']

end Sys2Proof.Machine

/-! SUPPORT. Which cycles complete: no instruction ends a run (60_exceptions.md R201), so the ports of a cycle alone decide
whether it has a next state (20_memory.md R64, 10_state.md R46). -/

namespace Sys2Proof.Machine

/-- Every instruction completes in every state: the commands with a check answer a next state on each side of it. -/
theorem exists_exec_next (i : Instr) (s : State) : ∃ t, exec i s = .next t := by
  cases i with
  | wrFreq c =>
    by_cases hout : s.a0 < s.cfg.minFreq ∨ s.a0 > s.cfg.maxFreq
    · exact ⟨_, if_pos hout⟩
    · exact ⟨_, if_neg hout⟩
  | wrHarm c =>
    by_cases hop : harmOperandsOk s.a0 s.a1 = true
    · exact ⟨_, exec_wrHarm_of_operandsOk hop⟩
    · exact ⟨_, exec_wrHarm_of_not_operandsOk hop⟩
  | rdHarm c =>
    cases hslot : nthActive (s.chan c).bank s.a0 with
    | some sl => exact ⟨_, exec_rdHarm_found hslot⟩
    | none => exact ⟨_, exec_rdHarm_notFound hslot⟩
  | rdFreq | wrPhase | rdPhase | wrAmp | rdAmp | clrHarm | tick | edge => exact ⟨_, rfl⟩

/-- Every write of a register completes, a CMD word that is ILLEGAL too. -/
theorem exists_hostWrite_next (r : HostReg) (v : Word) (s : State) : ∃ t, hostWrite r v s = .next t := by
  cases r with
  | cmd =>
    cases hdec : decode v with
    | ok i => simpa only [hostWrite, writeCmd_of_decode hdec] using exists_exec_next i s
    | error e => exact ⟨illegalCommand s, by rw [hostWrite, writeCmd, hdec]⟩
  | arg0 | arg1 | arg2 | status | res0 | res1 | res2 | res3 | outs | reserved => exact ⟨_, rfl⟩

theorem exists_edgePhase_next (fire : Bool) (s : State) : ∃ t, edgePhase fire s = .next t := by
  cases fire with
  | true => exact exists_exec_next .edge s
  | false => exact ⟨s, rfl⟩

/-- The bus ports hold no access or one the spec defines: at most one strobe (R46), and with a strobe an aligned offset
and all byte enables (R64). -/
def PortsIn.AccessLegal (p : PortsIn) : Prop :=
  ¬(p.busWe = true ∧ p.busRe = true) ∧
    (p.busWe = true ∨ p.busRe = true → p.busAddr.toNat % 4 = 0 ∧ p.busBe = 0b1111)

/-- A host access completes exactly when its ports are legal, whatever the state. -/
theorem exists_hostAccess_next_iff (p : PortsIn) (s : State) :
    (∃ t, hostAccess p s = .next t) ↔ p.AccessLegal := by
  constructor
  · rintro ⟨t, h⟩
    obtain ⟨hwe, hre, -⟩ | ⟨-, hre, hdef, -⟩ | ⟨hwe, -, hdef, -⟩ := hostAccess_next h
    · simp [PortsIn.AccessLegal, hwe, hre]
    · exact ⟨by simp [hre], fun _ => accessDefined_iff.mp hdef⟩
    · exact ⟨by simp [hwe], fun _ => accessDefined_iff.mp hdef⟩
  · rintro ⟨hone, hdef⟩
    cases hwe : p.busWe with
    | false =>
      cases hre : p.busRe with
      | false => exact ⟨_, hostAccess_of_noStrobe hwe hre s⟩
      | true =>
        obtain ⟨halign, hbe⟩ := hdef (.inr hre)
        exact ⟨_, hostAccess_of_read hwe hre halign hbe s⟩
    | true =>
      have hre : p.busRe = false := Bool.eq_false_iff.mpr fun hre => hone ⟨hwe, hre⟩
      obtain ⟨halign, hbe⟩ := hdef (.inl hwe)
      rw [hostAccess_of_write hwe hre halign hbe]
      exact exists_hostWrite_next ..

/-- A cycle completes exactly when it resets or its host access completes: TICK and EDGE always do. -/
theorem exists_runCycle_next_iff (p : PortsIn) (s : State) :
    (∃ t, runCycle p s = .next t) ↔ p.rst = true ∨ p.AccessLegal := by
  constructor
  · rintro ⟨t, h⟩
    obtain ⟨hrst, -⟩ | ⟨-, u, v, -, haccess, -⟩ := runCycle_next h
    · exact .inl hrst
    · exact .inr ((exists_hostAccess_next_iff p u).mp ⟨v, haccess⟩)
  · intro h
    by_cases hrst : p.rst = true
    · exact ⟨_, if_pos hrst⟩
    obtain ⟨u, hu⟩ := exists_tickPhase_next p (openCycle p s)
    obtain ⟨v, hv⟩ := (exists_hostAccess_next_iff p u).mpr (h.resolve_left hrst)
    rw [runCycle, if_neg hrst, hu, chain_next, hv, chain_next]
    exact exists_edgePhase_next ..

/-- Settles O15: the step checks the configuration and runs the next cycle. -/
theorem stepCompletesExactlyOnDefinedCycles : Obligations.StepCompletesExactlyOnDefinedCycles := by
  intro s
  have hcycle := exists_runCycle_next_iff (nextPorts s) { s with inputs := s.inputs.tail }
  refine ⟨fun ⟨t, h⟩ => ?_, fun ⟨hcfg, hports⟩ => ?_⟩
  · obtain ⟨hcfg, hrun⟩ := step_next h
    exact ⟨hcfg, hcycle.mp ⟨t, hrun⟩⟩
  · rw [step, if_pos hcfg]
    exact hcycle.mpr hports

/-- Settles O16: the cycle is its host access, and without a strobe there is none. -/
theorem idleCycleHoldsState : Obligations.IdleCycleHoldsState := by
  intro s p rest hcfg hin hrst htick hwe hre hedge
  exact (step_of_hostAccess hcfg hin hrst htick hedge).trans (hostAccess_of_noStrobe hwe hre _)

end Sys2Proof.Machine

/-! SUPPORT. The reset cycle and the hazards of a cycle: what a reset overrides, when read data is taken, and the sync
timer after an edge (70_reset_and_hazards.md R233, R234, R246, R248). -/

namespace Sys2Proof.Machine

/-! Reset -/

/-- Settles O42: both parts are the reset state of a legal configuration. -/
theorem resetSatisfiesInvariant : Obligations.ResetSatisfiesInvariant :=
  ⟨fun _ ins hcfg => resetOf_inv hcfg ins, resetOf_inv (by decide) []⟩

/-- Settles O8: a cycle with RST completes at a legal configuration, and what it leaves is the reset state. -/
theorem resetCycleRestoresResetState : Obligations.ResetCycleRestoresResetState := by
  intro s p rest hcfg hin hrst
  have hports : (nextPorts s).rst = true := by rwa [nextPorts, hin]
  obtain ⟨t, ht⟩ := (stepCompletesExactlyOnDefinedCycles s).mpr ⟨hcfg, .inl hports⟩
  rw [ht, step_of_rst ht hports, hin, List.tail_cons]

/-! Read data -/

/-- The EDGE of a cycle leaves the read data in place. -/
theorem edgePhase_busRdata {fire : Bool} {s t : State} (h : edgePhase fire s = .next t) : t.busRdata = s.busRdata := by
  cases fire with
  | true =>
    obtain rfl := Host.Outcome.next.inj ((exec_edge s).symm.trans h)
    exact resync_busRdata _
  | false =>
    obtain rfl := Host.Outcome.next.inj h
    rfl

/-- Settles O10: the read comes between the TICK, whose state `t` it reads, and the EDGE, which keeps the data. -/
theorem hostReadDataAfterTick : Obligations.HostReadDataAfterTick := by
  intro s p rest hcfg hin hrst hwe hre halign hbe
  obtain ⟨t, ht⟩ := exists_tickPhase_next p (openCycle p { s with inputs := rest })
  obtain ⟨u, hu⟩ := exists_edgePhase_next (edgeFires p s) (hostRead (hostReg p.busAddr) t)
  refine ⟨t, u, ht, ?edge, ?step, (edgePhase_busRdata hu).trans (hostRead_busRdata _ t)⟩
  case edge =>
    simp only [← edgeFires_iff]
    exact hu
  case step =>
    rw [step_eq_phases hcfg hin hrst, ht, chain_next, hostAccess_of_read hwe hre halign hbe, chain_next, hu]

/-! The sync timer after an edge -/

/-- An EDGE puts the state at the beginning of a high period, wherever it was (44_sync_controller.md R173). -/
theorem OnTimeline.of_edge {s : State} (hoff : ∀ c, (s.chan c).off < s.cfg.n) :
    OnTimeline s 1 0 (State.resync { s with level := true, elapsed := 0 }) where
  cfg := rfl
  level := rfl
  elapsed := rfl
  kept := fun c => by cases c <;> exact ⟨rfl, rfl, rfl⟩
  acc := fun c => by
    rw [resync_chan, channel_resync_acc, timelineAcc_rise (hoff c) (Nat.zero_mod 2)]
    cases c <;> rfl

/-- Ticks that do not complete the period leave it running. -/
theorem OnTimeline.exists_execTicks_within {s u : State} {q : Nat} (h : OnTimeline s q 0 u) {k : Nat}
    (hk : k < periodOf s.cfg s.chA.freq) : ∃ t, execTicks k u = .next t ∧ OnTimeline s q k t := by
  induction k with
  | zero => exact ⟨u, rfl, h⟩
  | succ k ih =>
    obtain ⟨t, ht, hline⟩ := ih (Nat.lt_of_succ_lt hk)
    exact ⟨_, by rw [execTicks_succ_last, ht, chain_next, exec_tick], hline.tick_within hk⟩

/-- Ticks that complete the period begin the next one. -/
theorem OnTimeline.exists_execTicks_toggle {s u : State} {q : Nat} (h : OnTimeline s q 0 u)
    (hP : 1 ≤ periodOf s.cfg s.chA.freq) (hoff : ∀ c, (s.chan c).off < s.cfg.n) :
    ∃ t, execTicks (periodOf s.cfg s.chA.freq) u = .next t ∧ OnTimeline s (q + 1) 0 t := by
  obtain ⟨k, hk⟩ := Nat.exists_eq_add_of_le' hP
  obtain ⟨t, ht, hline⟩ := h.exists_execTicks_within (k := k) (by omega)
  exact ⟨_, by rw [hk, execTicks_succ_last, ht, chain_next, exec_tick], hline.tick_toggle hk.symm hoff⟩

/-- Settles O37: the edge begins period 1, which is high; the tick that completes it begins period 2, which is low. -/
theorem edgeHoldsSyncTimer : Obligations.EdgeHoldsSyncTimer := by
  intro s k hP hk hoff
  have hrun : execAll (.edge :: List.replicate k .tick) s =
      execTicks k (State.resync { s with level := true, elapsed := 0 }) := by
    rw [execAll_cons, exec_edge, chain_next, execTicks]
  have hedge := OnTimeline.of_edge hoff
  rw [hrun]
  obtain hlt | rfl := Nat.lt_or_eq_of_le hk
  · obtain ⟨t, ht, hline⟩ := hedge.exists_execTicks_within hlt
    exact ⟨t, ht, by rw [hline.level, decide_eq_true hlt]; rfl, by rw [hline.elapsed, if_pos hlt], hline.acc⟩
  · obtain ⟨t, ht, hline⟩ := hedge.exists_execTicks_toggle hP hoff
    exact ⟨t, ht, by rw [hline.level, decide_eq_false (lt_irrefl _)]; rfl,
      by rw [hline.elapsed, if_neg (lt_irrefl _)], hline.acc⟩

end Sys2Proof.Machine
